-- ==== Sys2Proof/Word.lean ====
section
/-! DEFINITION. The widths of the ports and the index types of the tableau (00_scope.md R7, R8, R10). -/

namespace Sys2Proof

/-- A word on `CMD` or in `RESP`: 16 bits (R8, R81, R86). -/
abbrev Word := BitVec 16

/-- A word on the `KEY` bus: 216 bits, 36 entries of 6 (R8, R85). -/
abbrev KeyWord := BitVec 216

/-- A row or column coordinate, 0..5. The registers are 3 bits wide and never hold 6 or 7
(R26; 93_implementation_defined.md X6 lets a model type them so). DEDUCED, log entry 2. -/
abbrev Coord := Fin 6

/-- A symbol index, 0..35 (R18). The cells are 6 bits wide and never hold 36..63
(R23, X6). DEDUCED, log entry 2. -/
abbrev Sym := Fin 36

/-- The 36 cells of the tableau, in the row-major numbering `k = 6 r + c` (R50). -/
abbrev Tableau := Vector Sym 36

end Sys2Proof
end

