-- ==== Sys2Proof/Syntax.lean ====
section
/-! DEFINITION. The nine commands of opcode_table.json (30_encoding.md R83). A reserved or malformed
word is no instruction: the decoder refuses it by name (R89). -/

namespace Sys2Proof

/-- One constructor per row of the opcode table. An operand is its field read as an unsigned number
(R10, R82); `Instr.wellFormed` checks that it fits its field. LOAD_KEY has no operand field: its key
word stands on the `KEY` port (R85, R92). -/
inductive Instr where
  /-- NOP, opcode 0x0 (R190). -/
  | nop
  /-- LOAD_KEY, opcode 0x1 (R111). -/
  | loadKey
  /-- LOCATE s, opcode 0x2 (R120). -/
  | locate (s : Nat)
  /-- VALUE_AT row, col, opcode 0x3 (R125). -/
  | valueAt (row col : Nat)
  /-- POINTER_VALUE, opcode 0x4 (R130). -/
  | pointerValue
  /-- ENC s, opcode 0x5 (R161). -/
  | enc (s : Nat)
  /-- DEC s, opcode 0x6 (R171). -/
  | dec (s : Nat)
  /-- ABSORB s, opcode 0x7 (R181). -/
  | absorb (s : Nat)
  /-- END_SESSION, opcode 0x8 (R193). -/
  | endSession
  deriving DecidableEq, Repr

end Sys2Proof
end

