-- ==== Sys2Proof/WellFormed.lean ====
section
/-! DEFINITION. Which instructions have a command word: every operand fits its field (R81, R91). A
symbol 36..63 or a coordinate 6, 7 is well formed; it raises at execution (R91). -/

namespace Sys2Proof

/-- A symbol operand fits the 6-bit SYM field: 0..63 (R81). -/
def symFits (s : Nat) : Bool := decide (s < 64)

/-- A row or column operand fits its 3-bit field: 0..7 (R81). -/
def coordFits (c : Nat) : Bool := decide (c < 8)

/-- The instruction is a legal encoding (R91). -/
def Instr.wellFormed : Instr → Bool
  | .nop => true
  | .loadKey => true
  | .locate s => symFits s
  | .valueAt row col => coordFits row && coordFits col
  | .pointerValue => true
  | .enc s => symFits s
  | .dec s => symFits s
  | .absorb s => symFits s
  | .endSession => true

end Sys2Proof
end

