-- ==== Sys2Proof/Decode.lean ====
section
/-! DEFINITION. The decoder, total on all 2^16 command words (30_encoding.md R89), the encoder (R84),
and the opcode table's match and mask rows (R84). Decoding reads no state (R89). -/

namespace Sys2Proof

/-! ### The fields of a command word (R81, R82) -/

/-- OP = CMD[15:12]. -/
def opField (w : Word) : Nat := (w.extractLsb' 12 4).toNat

/-- SYM = CMD[11:6]. -/
def symField (w : Word) : Nat := (w.extractLsb' 6 6).toNat

/-- ROW = CMD[5:3]. -/
def rowField (w : Word) : Nat := (w.extractLsb' 3 3).toNat

/-- COL = CMD[2:0]. -/
def colField (w : Word) : Nat := (w.extractLsb' 0 3).toNat

/-- CMD[11:0], every bit below the opcode. -/
def argField (w : Word) : Nat := (w.extractLsb' 0 12).toNat

/-- CMD[5:0], the ROW and COL fields together. -/
def rowColField (w : Word) : Nat := (w.extractLsb' 0 6).toNat

/-! ### Decoding -/

/-- Why a word is ILLEGAL (R89, R90, R224). -/
inductive IllegalWord where
  /-- Opcode 0x9 to 0xF. -/
  | reservedOpcode (op : Nat)
  /-- A legal opcode with a nonzero bit in a field R84 marks `0`. -/
  | unusedFieldNonzero (op : Nat)
  deriving DecidableEq, Repr

/-- `Decode(w)` of R89. -/
def decode (w : Word) : Except IllegalWord Instr :=
  match opField w with
  | 0x0 => if argField w = 0 then .ok .nop else .error (.unusedFieldNonzero 0x0)
  | 0x1 => if argField w = 0 then .ok .loadKey else .error (.unusedFieldNonzero 0x1)
  | 0x2 => if rowColField w = 0 then .ok (.locate (symField w)) else .error (.unusedFieldNonzero 0x2)
  | 0x3 =>
    if symField w = 0 then .ok (.valueAt (rowField w) (colField w))
    else .error (.unusedFieldNonzero 0x3)
  | 0x4 => if argField w = 0 then .ok .pointerValue else .error (.unusedFieldNonzero 0x4)
  | 0x5 => if rowColField w = 0 then .ok (.enc (symField w)) else .error (.unusedFieldNonzero 0x5)
  | 0x6 => if rowColField w = 0 then .ok (.dec (symField w)) else .error (.unusedFieldNonzero 0x6)
  | 0x7 => if rowColField w = 0 then .ok (.absorb (symField w)) else .error (.unusedFieldNonzero 0x7)
  | 0x8 => if argField w = 0 then .ok .endSession else .error (.unusedFieldNonzero 0x8)
  | op => .error (.reservedOpcode op)

/-- The instruction the decoder reads from the first `nbits` bits of a command whose word is `w`, a
bit above `nbits` being 0. Every command is exactly 16 bits (R92), so a longer one is none. -/
def decodeTableWord (nbits w : Nat) : Option Instr :=
  if nbits ≤ 16 ∧ w < 2 ^ nbits then
    match decode (BitVec.ofNat 16 w) with
    | .ok i => some i
    | .error _ => none
  else none

/-! ### Encoding -/

/-- The command word of an instruction, by the word formulas of R84. -/
def encode : Instr → Word
  | .nop => 0x0000
  | .loadKey => 0x1000
  | .locate s => 0x2000 ||| (BitVec.ofNat 16 s <<< 6)
  | .valueAt row col => 0x3000 ||| (BitVec.ofNat 16 row <<< 3) ||| BitVec.ofNat 16 col
  | .pointerValue => 0x4000
  | .enc s => 0x5000 ||| (BitVec.ofNat 16 s <<< 6)
  | .dec s => 0x6000 ||| (BitVec.ofNat 16 s <<< 6)
  | .absorb s => 0x7000 ||| (BitVec.ofNat 16 s <<< 6)
  | .endSession => 0x8000

/-! ### The opcode table (R84, opcode_table.json) -/

/-- The nine mnemonics. -/
inductive Mnemonic where
  | NOP | LOAD_KEY | LOCATE | VALUE_AT | POINTER_VALUE | ENC | DEC | ABSORB | END_SESSION
  deriving DecidableEq, Repr

/-- The mnemonic of an instruction (R83). -/
def Instr.mnemonic : Instr → Mnemonic
  | .nop => .NOP
  | .loadKey => .LOAD_KEY
  | .locate _ => .LOCATE
  | .valueAt _ _ => .VALUE_AT
  | .pointerValue => .POINTER_VALUE
  | .enc _ => .ENC
  | .dec _ => .DEC
  | .absorb _ => .ABSORB
  | .endSession => .END_SESSION

/-- A row of the table: a word `w` spells the mnemonic exactly when `w &&& mask = pattern` (R84). -/
structure OpcodeRow where
  mnemonic : Mnemonic
  pattern  : Word
  mask     : Word
  deriving DecidableEq, Repr

/-- `w` spells the row's mnemonic (R84). -/
def OpcodeRow.spells (row : OpcodeRow) (w : Word) : Bool := decide (w &&& row.mask = row.pattern)

/-- The nine rows of R84. -/
def opcodeTable : List OpcodeRow :=
  [⟨.NOP, 0x0000, 0xFFFF⟩, ⟨.LOAD_KEY, 0x1000, 0xFFFF⟩, ⟨.LOCATE, 0x2000, 0xF03F⟩,
   ⟨.VALUE_AT, 0x3000, 0xFFC0⟩, ⟨.POINTER_VALUE, 0x4000, 0xFFFF⟩, ⟨.ENC, 0x5000, 0xF03F⟩,
   ⟨.DEC, 0x6000, 0xF03F⟩, ⟨.ABSORB, 0x7000, 0xF03F⟩, ⟨.END_SESSION, 0x8000, 0xFFFF⟩]

end Sys2Proof
end

