-- ==== Sys2Proof/Machine/State.lean ====
section
/-! DEFINITION. The block's architectural state, "exactly the set of elements" of 10_state.md R20, with
the two inputs a step reads (R38), the reset state (R39), and the reasons a step can stop. -/

namespace Sys2Proof.Machine

/-- The response codes 0 to 5 (R87). Codes 6 and 7 are "never produced", so they have no
constructor (X3; DEDUCED, log entry 2). -/
inductive Code where
  /-- 0: the command completed. -/
  | ok
  /-- 1: LOAD_KEY with a repeated entry (R221). -/
  | invalidKey
  /-- 2: a symbol operand or key entry above 35 (R222). -/
  | invalidSymbol
  /-- 3: a tableau command while `V = 0` (R223). -/
  | notKeyed
  /-- 4: a word that decodes to ILLEGAL (R224). -/
  | illegalCommand
  /-- 5: VALUE_AT with a coordinate above 5 (R225). -/
  | badCoord
  deriving DecidableEq, Repr

/-- What the snapshot is of: the values 0 to 3 of `SNAP_KIND` (R31). -/
inductive SnapKind where
  /-- 0: no step since LOAD_KEY, END_SESSION or reset. -/
  | noStep
  /-- 1: ABSORB. -/
  | absorb
  /-- 2: ENC. -/
  | enc
  /-- 3: DEC. -/
  | dec
  deriving DecidableEq, Repr

/-- The seven snapshot registers `SNAP_KIND`, `SNAP_R`, `SNAP_X`, `SNAP_Y`, `SNAP_YR`, `SNAP_PT` and
`SNAP_CT` (R31). Every rule that writes one writes all seven (R32). -/
structure Snap where
  kind : SnapKind
  r    : Coord
  x    : Coord
  y    : Coord
  yr   : Coord
  pt   : Sym
  ct   : Sym
  deriving DecidableEq, Repr

/-- The snapshot of "no step": every register 0 (R32, R39). -/
def Snap.cleared : Snap := ⟨.noStep, 0, 0, 0, 0, 0, 0⟩

/-- One event on the block's inputs. `rst` and commands come one at a time, each between two
commands (R205, R251, R262). -/
inductive HostEvent where
  /-- A command word on `CMD` with what stands on `KEY` in the same transaction (R80). The key word
  is any value for a command other than LOAD_KEY (U4). -/
  | command (cmd : Word) (key : KeyWord)
  /-- The `RST` input (R250). -/
  | rst
  deriving DecidableEq, Repr

/-- The state. `none` in `S`, `I` or `J` is the spec's ⊥, "no value" (R14): the content the spec
itself gives them at reset and END_SESSION (R39, R193). `S` is ⊥ in all its cells or in none, since
only whole-array writes make or remove ⊥ (R24). DEDUCED, log entry 1. `keyBus` and `inputs` are ports
and the host's stream, not the block's state (R38). DESIGN CHOICE, log entry 3. -/
structure State where
  S        : Option Tableau
  I        : Option Coord
  J        : Option Coord
  V        : Bool
  lastCode : Code
  resp     : Word
  snap     : Snap
  keyBus   : KeyWord
  inputs   : List HostEvent
  deriving DecidableEq, Repr

/-- The reset state of R39 and R250. No event is pending and `KEY` carries 0 (DESIGN CHOICE, log
entry 3). -/
def State.reset : State where
  S        := none
  I        := none
  J        := none
  V        := false
  lastCode := .ok
  resp     := 0x0000
  snap     := Snap.cleared
  keyBus   := 0
  inputs   := []

/-- Why the machine stops. Neither reason arises in a state that meets `State.Inv` of Safety.lean, so
neither in a run from reset. -/
inductive Fault where
  /-- Raised by a command that passed the check `V = 1` and then reads ⊥ in `S`, `I` or `J`: R14 and
  93_implementation_defined.md U1 ask for a fault, never a value. Safe. -/
  | bottomRead
  /-- Raised by `Locate` (LOCATE, ENC, DEC, ABSORB) when the tableau holds the value nowhere, which no
  permutation does (R53, R23). Safe. -/
  | locateMiss
  deriving DecidableEq, Repr

/-- Why a step has no meaning. -/
inductive Refusal where
  /-- Raised by an arm of `exec` for an instruction with no meaning yet; no arm raises it. Safe. -/
  | notModelled (mnemonic : String)
  deriving DecidableEq, Repr

end Sys2Proof.Machine
end

