-- ==== Sys2Proof/Machine/Flags.lean ====
section
/-! DEFINITION. The status and response fields. The block has no arithmetic flags (R37): its status
bits are `V`, `LAST_CODE` and the `DV` bit of each response. -/

namespace Sys2Proof.Machine

/-! ### Register contents as bits -/

/-- A coordinate in its 3-bit register or field (R8). -/
def coordBits (c : Coord) : BitVec 3 := BitVec.ofNat 3 c.val

/-- A symbol index in its 6-bit cell or field (R8). -/
def symBits (v : Sym) : BitVec 6 := BitVec.ofNat 6 v.val

/-- `CODE` and `LAST_CODE` (R87). -/
def Code.bits : Code → BitVec 3
  | .ok => 0
  | .invalidKey => 1
  | .invalidSymbol => 2
  | .notKeyed => 3
  | .illegalCommand => 4
  | .badCoord => 5

/-- `SNAP_KIND` (R31). -/
def SnapKind.bits : SnapKind → BitVec 2
  | .noStep => 0
  | .absorb => 1
  | .enc => 2
  | .dec => 3

/-! ### The response word (R86) -/

/-- CODE[15:13] DV[12] DSYM[11:6] DROW[5:3] DCOL[2:0]. -/
def respWord (code : Code) (dv : Bool) (dsym : BitVec 6) (drow dcol : BitVec 3) : Word :=
  code.bits ++ BitVec.ofBool dv ++ dsym ++ drow ++ dcol

/-- CODE of a response word. -/
def respCode (w : Word) : BitVec 3 := w.extractLsb' 13 3

/-- DV of a response word. -/
def respDv (w : Word) : BitVec 1 := w.extractLsb' 12 1

/-- DSYM of a response word. -/
def respDsym (w : Word) : BitVec 6 := w.extractLsb' 6 6

/-- DROW of a response word. -/
def respDrow (w : Word) : BitVec 3 := w.extractLsb' 3 3

/-- DCOL of a response word. -/
def respDcol (w : Word) : BitVec 3 := w.extractLsb' 0 3

/-! ### STATUS (R30) -/

/-- The read-only view `{0, 0, SNAP_KIND, LAST_CODE, V}` (R30, D8, X4). -/
def State.status (s : State) : BitVec 8 :=
  (0 : BitVec 2) ++ s.snap.kind.bits ++ s.lastCode.bits ++ BitVec.ofBool s.V

end Sys2Proof.Machine
end

