-- ==== Sys2Proof/Machine/Ops.lean ====
section
/-! DEFINITION. The named operations: the tableau cell space (20_memory.md), the ways a command ends
(R13), the writes of the state, the reads that meet ⊥ (R14), and the ports (R80, R250). -/

namespace Sys2Proof.Machine

/-! ### The cell space (R50, R52) -/

/-- The number of cell `(r, c)`: `k = 6·r + c` (R50). -/
def cellNo (r c : Coord) : Fin 36 := ⟨6 * r.val + c.val, by omega⟩

/-- The row of cell `k`: `k div 6` (R50). -/
def cellRow (k : Fin 36) : Coord := ⟨k.val / 6, by omega⟩

/-- The column of cell `k`: `k mod 6` (R50). -/
def cellCol (k : Fin 36) : Coord := ⟨k.val % 6, by omega⟩

/-- `MemRead(k, 1)` (R12). -/
def memRead (t : Tableau) (k : Fin 36) : Sym := t[k]

/-- `MemWrite(k, 1, v)` (R12). No command writes one cell alone (R60). -/
def memWrite (t : Tableau) (k : Fin 36) (v : Sym) : Tableau := t.set k v

/-- `ValueAt(r, c)`, the cell `S[r][c]` (R52). -/
def valueAt (t : Tableau) (r c : Coord) : Sym := memRead t (cellNo r c)

/-- The tableau whose cell `(r, c)` is `f r c`. -/
def tableauOf (f : Coord → Coord → Sym) : Tableau :=
  Vector.ofFn fun k => f (cellRow k) (cellCol k)

/-- The cell space's well-formedness (R23): no value stands in two cells, so, there being 36 cells
and 36 values, each value stands in exactly one. -/
def Memory.wf (t : Tableau) : Bool := decide t.toList.Nodup

/-! ### The pointer controller's arithmetic (41_transition.md §2) -/

/-- Increment mod 6 (R151). -/
def inc6 (a : Coord) : Coord := if h : a.val = 5 then 0 else ⟨a.val + 1, by omega⟩

/-- Addition mod 6 (R152). -/
def add6 (a b : Coord) : Coord :=
  if h : 6 ≤ a.val + b.val then ⟨a.val + b.val - 6, by omega⟩ else ⟨a.val + b.val, by omega⟩

/-- Subtraction mod 6 (R154). -/
def sub6 (a b : Coord) : Coord :=
  if h : b.val ≤ a.val then ⟨a.val - b.val, by omega⟩ else ⟨a.val + 6 - b.val, by omega⟩

/-- The row offset `v div 6` of a symbol index (R153). -/
def rowOffset (v : Sym) : Coord := ⟨v.val / 6, by omega⟩

/-- The column offset `v mod 6` of a symbol index (R153). -/
def colOffset (v : Sym) : Coord := ⟨v.val % 6, by omega⟩

/-! ### The rotation engine (R54, R55) -/

/-- `RotRowRight(r)`: row `r` one position to the right, the last element to the first. -/
def rotRowRight (r : Coord) (t : Tableau) : Tableau :=
  tableauOf fun a c => if a = r then valueAt t a (add6 c 5) else valueAt t a c

/-- `RotColDown(y)`: column `y` one position down, the last element to the first. -/
def rotColDown (y : Coord) (t : Tableau) : Tableau :=
  tableauOf fun k c => if c = y then valueAt t (add6 k 5) c else valueAt t k c

/-! ### How a command ends (R13) -/

/-- `respond(code, dv, dsym, drow, dcol)`: writes `RESP` and `LAST_CODE` (R13, R28, R29). -/
def State.respond (s : State) (code : Code) (dv : Bool) (dsym : BitVec 6) (drow dcol : BitVec 3) :
    State :=
  { s with resp := respWord code dv dsym drow dcol, lastCode := code }

/-- `raise CODE`: the block's one way of taking an error. It is `respond(CODE, 0, 0, 0, 0)` and
nothing else: nothing is saved, there is no mode, mask, vector or handler (R13, R220, R229). There is
no return from it: the next command runs normally (R230). -/
def State.raise (s : State) (code : Code) : State := s.respond code false 0 0 0

/-- What ends a command's computation before its writes: a raise, or a fault of the model. -/
inductive Stop where
  | raise (code : Code)
  | fault (f : Fault)
  deriving DecidableEq, Repr

/-- A command's outcome from its computation: the state it leaves, or the raise from the state BEFORE
it, since every check comes before every write (R13), or the fault. -/
def finish (s : State) : Except Stop State → Host.Outcome State Fault Refusal
  | .ok t => .next t
  | .error (.raise code) => .next (s.raise code)
  | .error (.fault f) => .fault f

/-! ### The checks and reads of a command -/

/-- `if V == 0: raise NOT_KEYED()` (R223). -/
def needKeyed (s : State) : Except Stop Unit :=
  if s.V then .ok () else .error (.raise .notKeyed)

/-- A read of `S`, `I` or `J`: a fault at ⊥, never a value (R14, U1). -/
def readElem {α : Type} : Option α → Except Stop α
  | some a => .ok a
  | none => .error (.fault .bottomRead)

/-- The tableau and pointer of a live session (R16, R17). -/
structure Keyed where
  S : Tableau
  I : Coord
  J : Coord
  deriving DecidableEq, Repr

/-- `S`, `I` and `J`, read together. -/
def readKeyed (s : State) : Except Stop Keyed := do
  let t ← readElem s.S
  let i ← readElem s.I
  let j ← readElem s.J
  pure ⟨t, i, j⟩

/-- `PointerValue()`, the cell `S[I][J]` (R52). -/
def pointerValue (k : Keyed) : Sym := valueAt k.S k.I k.J

/-- The first cell that holds `v`, in the scan's order (R53). -/
def findCell (t : Tableau) (v : Sym) : Option (Fin 36) :=
  (List.finRange 36).find? fun k => memRead t k == v

/-- `Locate(v)` (R53). In a tableau that is no permutation the value may be nowhere: a fault of its
own name (DEDUCED, log entry 7). -/
def locate (t : Tableau) (v : Sym) : Except Stop (Coord × Coord) :=
  match findCell t v with
  | some k => .ok (cellRow k, cellCol k)
  | none => .error (.fault .locateMiss)

/-! ### The state's writes -/

/-- `S`, `I` and `J` together, as TRANSITION leaves them (R141). -/
def State.writeKeyed (s : State) (k : Keyed) : State :=
  { s with S := some k.S, I := some k.I, J := some k.J }

/-- All seven snapshot registers (R32). -/
def State.writeSnap (s : State) (n : Snap) : State := { s with snap := n }

/-- `V` (R27). -/
def State.writeValid (s : State) (v : Bool) : State := { s with V := v }

/-- `S`, `I` and `J` to ⊥ (R193). -/
def State.dropKeyed (s : State) : State := { s with S := none, I := none, J := none }

/-! ### The ports -/

/-- The host presents a command as its next event (R80). -/
def State.present (s : State) (cmd : Word) (key : KeyWord) : State :=
  { s with inputs := .command cmd key :: s.inputs }

/-- The block takes a transaction: the key word stands on `KEY`, and `rest` stays pending. -/
def State.accept (s : State) (key : KeyWord) (rest : List HostEvent) : State :=
  { s with keyBus := key, inputs := rest }

/-- `RST`: every element of R39 at its reset value, whatever the state was (R250, R251). The ports
are no state and stay. -/
def State.resetBlock (s : State) : State :=
  { State.reset with keyBus := s.keyBus, inputs := s.inputs }

/-- What the next step has to do. -/
inductive Fetched where
  /-- No event is pending: the block is idle (R238, R252). -/
  | idle
  /-- `RST`, with the state that remains to be reset. -/
  | rst (s : State)
  /-- A command word, with the state it executes in. -/
  | command (cmd : Word) (s : State)
  deriving DecidableEq, Repr

/-- Takes the host's oldest pending event. -/
def fetch (s : State) : Fetched :=
  match s.inputs with
  | [] => .idle
  | .rst :: rest => .rst { s with inputs := rest }
  | .command cmd key :: rest => .command cmd (s.accept key rest)

/-- A step with no event pending: the state is held (R238). DEDUCED, log entry 4. -/
def idleStep (s : State) : Host.Outcome State Fault Refusal := .next s

/-- The step that takes `RST` (R250). -/
def resetStep (s : State) : Host.Outcome State Fault Refusal := .next s.resetBlock

/-- Executing ILLEGAL is `raise ILLEGAL_COMMAND(w)`, whatever made the word illegal (R89, R224). -/
def illegalStep (_why : IllegalWord) (s : State) : Host.Outcome State Fault Refusal :=
  .next (s.raise .illegalCommand)

/-! ### The observation port (R36) -/

/-- What `OBS` shows between commands. While `V = 0` the parts `S`, `I` and `J` read ⊥. -/
structure Obs where
  S      : Option Tableau
  I      : Option Coord
  J      : Option Coord
  status : BitVec 8
  resp   : Word
  snap   : Snap
  deriving DecidableEq, Repr

/-- Reading `OBS` is a function of the state and writes nothing (R36). While `V = 0` it shows no
value of `S`, `I` and `J` (R36, U2). DEDUCED, log entry 19. -/
def State.observe (s : State) : Obs where
  S      := if s.V then s.S else none
  I      := if s.V then s.I else none
  J      := if s.V then s.J else none
  status := s.status
  resp   := s.resp
  snap   := s.snap

end Sys2Proof.Machine
end

