-- ==== Sys2Proof/Machine/SessionCommands.lean ====
section
/-! DEFINITION. NOP and END_SESSION (43_session_and_host.md R190, R193). -/

namespace Sys2Proof.Machine

/-- NOP (R190): writes `RESP = 0x0000` and `LAST_CODE = 0`, whatever `V` is. -/
def execNop (s : State) : Host.Outcome State Fault Refusal :=
  .next (s.respond .ok false 0 0 0)

/-- END_SESSION (R193): `S`, `I` and `J` to ⊥, `V` to 0, the snapshot cleared. It succeeds with no
session too. -/
def execEndSession (s : State) : Host.Outcome State Fault Refusal :=
  .next (((s.dropKeyed.writeValid false).writeSnap Snap.cleared).respond .ok false 0 0 0)

end Sys2Proof.Machine
end

