-- ==== Sys2Proof/Machine/Operands.lean ====
section
/-! DEFINITION. The operand forms (R82): the symbol operand, the coordinate pair, and the 36 entries of
the key bus, each with the check its command makes (R221, R222, R225). -/

namespace Sys2Proof.Machine

/-- A symbol operand: `if s > 35: raise INVALID_SYMBOL(s)` (R222). -/
def symOperand (s : Nat) : Except Stop Sym :=
  if h : s < 36 then .ok ⟨s, h⟩ else .error (.raise .invalidSymbol)

/-- A row and a column: `if row > 5 or col > 5: raise BAD_COORD(row, col)` (R225). -/
def coordOperands (row col : Nat) : Except Stop (Coord × Coord) :=
  if h : row < 6 ∧ col < 6 then .ok (⟨row, h.1⟩, ⟨col, h.2⟩) else .error (.raise .badCoord)

/-- `key[k] = KEY[6k+5:6k]` (R82, R85). -/
def keyEntry (key : KeyWord) (k : Nat) : Nat := (key.extractLsb' (6 * k) 6).toNat

/-- Two entries at different places are equal (R111). -/
def keyHasDuplicate (key : KeyWord) : Bool :=
  !decide ((List.range 36).map (keyEntry key)).Nodup

/-- LOAD_KEY's operand: the row-major tableau of the key, after its two checks in R111's order. -/
def keyOperand (key : KeyWord) : Except Stop Tableau :=
  if h : ∀ k : Fin 36, keyEntry key k.val < 36 then
    if keyHasDuplicate key then .error (.raise .invalidKey)
    else .ok (tableauOf fun r c => ⟨keyEntry key (cellNo r c).val, h (cellNo r c)⟩)
  else .error (.raise .invalidSymbol)

end Sys2Proof.Machine
end

