-- ==== Sys2Proof/Machine/Transition.lean ====
section
/-! DEFINITION. TRANSITION, the sequence ENC, DEC and ABSORB run once each (41_transition.md). No
command word runs it on its own (R157), and its phases are not state (R34). -/

namespace Sys2Proof.Machine

/-- The step descriptor `(r, x, y, ct)` (R17, R140). It lives inside one command (R33). `ct` is the
ciphertext-side index in both directions (90_conflicts.md C5). -/
structure Descriptor where
  r  : Coord
  x  : Coord
  y  : Coord
  ct : Sym
  deriving DecidableEq, Repr

/-- P2: `if x == r: y <- (y + 1) mod 6` (R142). The result is `yr`. -/
def rotatedColumn (d : Descriptor) : Coord := if d.x = d.r then inc6 d.y else d.y

/-- TRANSITION's sub-steps P1 to P7, each seeing the ones before it (R141, R147). -/
def transition (d : Descriptor) (k : Keyed) : Keyed :=
  let s1 := rotRowRight d.r k.S                          -- P1
  let yr := rotatedColumn d                              -- P2
  let j3 := if k.I = d.r then inc6 k.J else k.J          -- P3
  let s4 := rotColDown yr s1                             -- P4
  let i5 := if j3 = yr then inc6 k.I else k.I            -- P5
  let i6 := add6 i5 (rowOffset d.ct)                     -- P6
  let j7 := add6 j3 (colOffset d.ct)                     -- P7
  ⟨s4, i6, j7⟩

end Sys2Proof.Machine
end

