-- ==== Sys2Proof/Machine/StepCommands.lean ====
section
/-! DEFINITION. The step commands ENC, DEC and ABSORB (42_encrypt_decrypt.md). -/

namespace Sys2Proof.Machine

/-- What one step computes: its descriptor and the plaintext-side index (R33). -/
structure StepValues where
  d  : Descriptor
  pt : Sym
  deriving DecidableEq, Repr

/-- The encrypt step up to TRANSITION (R160, R161). -/
def encryptStep (k : Keyed) (pt : Sym) : Except Stop StepValues := do
  let rc ← locate k.S pt
  let v := pointerValue k
  let x := add6 rc.1 (rowOffset v)
  let y := add6 rc.2 (colOffset v)
  pure ⟨⟨rc.1, x, y, valueAt k.S x y⟩, pt⟩

/-- The decrypt step up to TRANSITION (R170, R171). -/
def decryptStep (k : Keyed) (ct : Sym) : Except Stop StepValues := do
  let xy ← locate k.S ct
  let v := pointerValue k
  let r := sub6 xy.1 (rowOffset v)
  let c := sub6 xy.2 (colOffset v)
  pure ⟨⟨r, xy.1, xy.2, ct⟩, valueAt k.S r c⟩

/-- TRANSITION and the seven snapshot writes of a step (R31, R161, R171, R181). -/
def State.commitStep (s : State) (kind : SnapKind) (k : Keyed) (e : StepValues) : State :=
  (s.writeKeyed (transition e.d k)).writeSnap
    ⟨kind, e.d.r, e.d.x, e.d.y, rotatedColumn e.d, e.pt, e.d.ct⟩

/-- ENC (R161): the response carries the ciphertext index. -/
def execEnc (n : Nat) (s : State) : Host.Outcome State Fault Refusal :=
  finish s do
    needKeyed s
    let pt ← symOperand n
    let k ← readKeyed s
    let e ← encryptStep k pt
    pure ((s.commitStep .enc k e).respond .ok true (symBits e.d.ct) 0 0)

/-- DEC (R171): the response carries the plaintext index. -/
def execDec (n : Nat) (s : State) : Host.Outcome State Fault Refusal :=
  finish s do
    needKeyed s
    let ct ← symOperand n
    let k ← readKeyed s
    let e ← decryptStep k ct
    pure ((s.commitStep .dec k e).respond .ok true (symBits e.pt) 0 0)

/-- ABSORB (R181): ENC's computation, its output discarded (`DV = 0`). -/
def execAbsorb (n : Nat) (s : State) : Host.Outcome State Fault Refusal :=
  finish s do
    needKeyed s
    let pt ← symOperand n
    let k ← readKeyed s
    let e ← encryptStep k pt
    pure ((s.commitStep .absorb k e).respond .ok false 0 0 0)

end Sys2Proof.Machine
end

