-- ==== Sys2Proof/Machine/TableauCommands.lean ====
section
/-! DEFINITION. LOAD_KEY, LOCATE, VALUE_AT and POINTER_VALUE (40_tableau_ops.md). -/

namespace Sys2Proof.Machine

/-- LOAD_KEY (R111 to R113): validates the whole key on `KEY` before any write, fills the tableau
row-major, sets the pointer to (0, 0) and `V`, clears the snapshot. It does not look at `V`, and runs
no TRANSITION. -/
def execLoadKey (s : State) : Host.Outcome State Fault Refusal :=
  finish s do
    let t ← keyOperand s.keyBus
    pure ((((s.writeKeyed ⟨t, 0, 0⟩).writeValid true).writeSnap Snap.cleared).respond .ok false 0 0 0)

/-- LOCATE (R120). -/
def execLocate (n : Nat) (s : State) : Host.Outcome State Fault Refusal :=
  finish s do
    needKeyed s
    let v ← symOperand n
    let t ← readElem s.S
    let at' ← locate t v
    pure (s.respond .ok true 0 (coordBits at'.1) (coordBits at'.2))

/-- VALUE_AT (R125). -/
def execValueAt (row col : Nat) (s : State) : Host.Outcome State Fault Refusal :=
  finish s do
    needKeyed s
    let rc ← coordOperands row col
    let t ← readElem s.S
    pure (s.respond .ok true (symBits (valueAt t rc.1 rc.2)) 0 0)

/-- POINTER_VALUE (R130). -/
def execPointerValue (s : State) : Host.Outcome State Fault Refusal :=
  finish s do
    needKeyed s
    let k ← readKeyed s
    pure (s.respond .ok true (symBits (pointerValue k)) (coordBits k.I) (coordBits k.J))

end Sys2Proof.Machine
end

