-- ==== Sys2Proof/Machine/Dispatch.lean ====
section
/-! DEFINITION. One arm per instruction. -/

namespace Sys2Proof.Machine

/-- The meaning of an instruction in a state. -/
def exec (i : Instr) (s : State) : Host.Outcome State Fault Refusal :=
  match i with
  | .nop => Sys2Proof.Machine.execNop s
  | .loadKey => Sys2Proof.Machine.execLoadKey s
  | .locate n => Sys2Proof.Machine.execLocate n s
  | .valueAt row col => Sys2Proof.Machine.execValueAt row col s
  | .pointerValue => Sys2Proof.Machine.execPointerValue s
  | .enc n => Sys2Proof.Machine.execEnc n s
  | .dec n => Sys2Proof.Machine.execDec n s
  | .absorb n => Sys2Proof.Machine.execAbsorb n s
  | .endSession => Sys2Proof.Machine.execEndSession s

end Sys2Proof.Machine
end

