-- ==== Sys2Proof/Machine/Step.lean ====
section
/-! DEFINITION. One step: the host's oldest pending event, or idling when there is none (R63, R80). -/

namespace Sys2Proof.Machine

/-- One step. A command is decoded and executed atomically (R34, R80); an illegal word raises
ILLEGAL_COMMAND (R89); `RST` resets (R250); with nothing pending the state is held (R238). -/
def step (s : State) : Host.Outcome State Fault Refusal :=
  match fetch s with
  | .idle => idleStep s
  | .rst s' => resetStep s'
  | .command cmd s' =>
    match decode cmd with
    | .ok i => exec i s'
    | .error why => illegalStep why s'

/-- `s` with the command whose word is `w` presented as the host's next event, so that the next step
executes it. `KEY` carries what it carried (the opcode table gives the key word no bits of the
command). DESIGN CHOICE, log entry 5. -/
def State.withFetchWord (s : State) (nbits w : Nat) : State :=
  s.present (BitVec.ofNat 16 (w % 2 ^ nbits)) s.keyBus

end Sys2Proof.Machine
end

