-- ==== Sys2Proof/Config.lean ====
section
/-! DEFINITION. The open parameters of the spec (93_implementation_defined.md P1 to P4), and the inputs of
the known vector, which R209 names. All four parameters belong to the host or to the recorder; the
engine's rules depend on none of them (R9), so the model takes them as arguments. The engine itself has
no parameter and no free value (R2, R7, R204). -/

namespace Sys2Proof

/-- `ALPHABET` and `CASE_FOLD` (R9, R200, P1, P2). `symbols` is what the host was given: its
`build` checks that it is 36 pairwise distinct symbols. A symbol is a `Char` (DESIGN CHOICE, log
entry 13). -/
structure HostParams where
  symbols  : List Char
  caseFold : Bool
  deriving DecidableEq, Repr

/-- The default alphabet `#_23456789abcdefghijklmnopqrstuvwxyz` (R9, R200). -/
def Config.defaultSymbols : List Char :=
  ['#', '_', '2', '3', '4', '5', '6', '7', '8', '9',
   'a', 'b', 'c', 'd', 'e', 'f', 'g', 'h', 'i', 'j', 'k', 'l', 'm',
   'n', 'o', 'p', 'q', 'r', 's', 't', 'u', 'v', 'w', 'x', 'y', 'z']

/-- The key string of the source's known vector (95_test_vectors.md V-S1), an input R209 names. -/
def Config.knownKey : List Char :=
  ['x', 'v', '7', 'y', 'd', 'q', '#', 'o', 'p', 'a', 'j', '_', '3', '9', 'r', 'z', 'u', 't',
   '8', 'b', '4', '5', 'w', 'c', 's', 'g', 'e', 'h', 'm', 'i', 'k', 'n', 'f', '2', '6', 'l']

/-- The known vector's nonce (V-S1). -/
def Config.knownNonce : List Char := ['s', 'o', 'l', 'w', 'b', 'f']

/-- The known vector's plaintext, its signature appended (V-S1, R208). -/
def Config.knownPlaintext : List Char :=
  ['i', 'm', '_', 'a', 'b', 'o', 'u', 't', '_', 't', 'o', '_', 'p', 'u', 't', '_', 't', 'h', 'e', '_',
   'h', 'a', 'm', 'm', 'e', 'r', '_', 'd', 'o', 'w', 'n',
   '#', 'r', 'u', 'b', 'b', 'e', 'r', 'd', 'u', 'c', 'k']

/-- `SNAPSHOT_Y_SEL`: which `y` a snapshot shows (R199, P3). -/
inductive YSel where
  | descriptor   -- `SNAP_Y`
  | rotated      -- `SNAP_YR`
  deriving DecidableEq, Repr

/-- Which of `SNAP_PT` and `SNAP_CT` count as absent (R199). -/
structure AbsentFields where
  pt : Bool
  ct : Bool
  deriving DecidableEq, Repr

/-- The recorder's parameters (R199, P3, P4). `SNAPSHOT_ABSENT` is given by its value for each kind
of step; for `SNAP_KIND = 0` both fields are absent whatever the parameter is (P4), so it has no
entry here. -/
structure RecorderParams where
  ySel        : YSel
  absentAbsorb : AbsentFields
  absentEnc    : AbsentFields
  absentDec    : AbsentFields
  deriving DecidableEq, Repr

end Sys2Proof
end

