-- ==== Sys2Proof/Machine/Alphabet.lean ====
section
/-! DEFINITION. The host's alphabet (43_session_and_host.md R200) and its checks on keys and messages
(R201, R202). The block sees indices only (R6). -/

namespace Sys2Proof.Machine

/-- Why the host gives up a message. -/
inductive HostError where
  /-- ConfigurationError: the alphabet is malformed (R200, R240). -/
  | configuration
  /-- InvalidSymbolError: a character outside the alphabet (R200). -/
  | invalidSymbol
  /-- InvalidKeyError: a key of another length than 36, or with a repeated symbol (R201). -/
  | invalidKey
  /-- A command's response had a nonzero code; the message is abandoned (R205). -/
  | rejected (code : Code)
  /-- The machine stopped with a fault or a refusal. -/
  | stopped
  deriving DecidableEq, Repr

/-- 36 symbols, in order: position `n` is the symbol of index `n` (R200). -/
abbrev Alphabet := Vector Char 36

/-- `build(symbols)`: ConfigurationError unless the length is 36 and the symbols are pairwise distinct
(R200). -/
def buildAlphabet (symbols : List Char) : Except HostError Alphabet :=
  if h : symbols.length = 36 then
    if symbols.Nodup then .ok ⟨symbols.toArray, by simpa using h⟩ else .error .configuration
  else .error .configuration

/-- Lowercases when `CASE_FOLD` is true (R200). -/
def foldCase (caseFold : Bool) (ch : Char) : Char := if caseFold then ch.toLower else ch

/-- `toSymbol(index)`, total (R200). -/
def toSymbol (a : Alphabet) (v : Sym) : Char := a[v]

/-- `toIndex(symbol)`: InvalidSymbolError if the symbol, lowercased when `CASE_FOLD` is true, is not in
the alphabet (R200). -/
def toIndex (caseFold : Bool) (a : Alphabet) (ch : Char) : Except HostError Sym :=
  match (List.finRange 36).find? fun v => toSymbol a v == foldCase caseFold ch with
  | some v => .ok v
  | none => .error .invalidSymbol

/-- The indices of a string; its first character outside the alphabet is the error. -/
def toIndices (caseFold : Bool) (a : Alphabet) : List Char → Except HostError (List Sym)
  | [] => .ok []
  | ch :: chs => do
    let v ← toIndex caseFold a ch
    let vs ← toIndices caseFold a chs
    pure (v :: vs)

/-- The checks on a key string, in R201's order: symbols, then length, then duplicates. The spec lets
the host leave the last to LOAD_KEY or do it itself; it does it (DESIGN CHOICE, log entry 12). -/
def keyIndices (caseFold : Bool) (a : Alphabet) (key : List Char) : Except HostError (List Sym) := do
  let ks ← toIndices caseFold a key
  if ks.length ≠ 36 then .error .invalidKey
  else if ks.Nodup then pure ks
  else .error .invalidKey

/-- What the host holds once a message has passed its checks. -/
structure Checked where
  alphabet : Alphabet
  key      : List Sym
  nonce    : List Sym
  header   : List Sym
  payload  : List Sym
  deriving DecidableEq, Repr

/-- `HostCheck`: the alphabet, the key, then every character of the nonce, the header and the payload,
before any command (R202, D44). -/
def hostCheck (p : HostParams) (key nonce header payload : List Char) : Except HostError Checked := do
  let a ← buildAlphabet p.symbols
  let ks ← keyIndices p.caseFold a key
  let ns ← toIndices p.caseFold a nonce
  let hs ← toIndices p.caseFold a header
  let ms ← toIndices p.caseFold a payload
  pure ⟨a, ks, ns, hs, ms⟩

/-- `Σ key[k] · 2^(6k)` over the entries in order (R85). -/
def packKey : List Nat → Nat
  | [] => 0
  | k :: ks => k + 64 * packKey ks

/-- The word the host puts on `KEY` (R85). -/
def keyWordOf (ks : List Sym) : KeyWord := BitVec.ofNat 216 (packKey (ks.map Fin.val))

end Sys2Proof.Machine
end

