-- ==== Sys2Proof/Machine/Assembler.lean ====
section
/-! DEFINITION. The assembler (30_encoding.md R93): one command a line, from text to the command word
and, for LOAD_KEY, the key word. -/

namespace Sys2Proof.Machine

/-- Why a line gives no word. -/
inductive AsmError where
  /-- A literal not in the alphabet (R93), or an index above 63. -/
  | invalidSymbol
  /-- A row or column above 7. -/
  | coordRange
  /-- LOAD_KEY without exactly 36 entries. -/
  | keyLength
  /-- The alphabet itself is malformed. -/
  | configuration
  /-- The line has none of R93's forms. -/
  | badLine
  deriving DecidableEq, Repr

/-- A `<sym>` operand: a decimal index or a quoted character (R93). -/
inductive SymOperand where
  | index (n : Nat)
  | literal (ch : Char)
  deriving DecidableEq, Repr

/-- A line's command (R93). -/
inductive AsmLine where
  | nop
  | loadKey (entries : List SymOperand)
  | locate (s : SymOperand)
  | valueAt (row col : Nat)
  | pointerValue
  | enc (s : SymOperand)
  | dec (s : SymOperand)
  | absorb (s : SymOperand)
  | endSession
  deriving DecidableEq, Repr

/-! ### From a line's command to its words -/

/-- The index of an operand: 0..63, or `index(c)` of a literal (R93). -/
def asmIndex (caseFold : Bool) (a : Alphabet) : SymOperand → Except AsmError Nat
  | .index n => if n < 64 then .ok n else .error .invalidSymbol
  | .literal ch =>
    match toIndex caseFold a ch with
    | .ok v => .ok v.val
    | .error _ => .error .invalidSymbol

/-- The indices of LOAD_KEY's operands. -/
def asmIndices (caseFold : Bool) (a : Alphabet) : List SymOperand → Except AsmError (List Nat)
  | [] => .ok []
  | s :: ss => do
    let n ← asmIndex caseFold a s
    let ns ← asmIndices caseFold a ss
    pure (n :: ns)

/-- What a line assembles to: a command, encoded by R84, and LOAD_KEY's key word by R85. -/
structure Assembled where
  instr : Instr
  word  : Word
  key   : Option KeyWord
  deriving DecidableEq, Repr

/-- A command without a key word. -/
def plainCommand (i : Instr) : Assembled := ⟨i, encode i, none⟩

/-- The words of a line's command (R93). -/
def assemble (caseFold : Bool) (a : Alphabet) : AsmLine → Except AsmError Assembled
  | .nop => .ok (plainCommand .nop)
  | .loadKey entries => do
    let ks ← asmIndices caseFold a entries
    if ks.length = 36 then pure ⟨.loadKey, encode .loadKey, some (BitVec.ofNat 216 (packKey ks))⟩
    else .error .keyLength
  | .locate s => do pure (plainCommand (.locate (← asmIndex caseFold a s)))
  | .valueAt row col =>
    if row < 8 ∧ col < 8 then .ok (plainCommand (.valueAt row col)) else .error .coordRange
  | .pointerValue => .ok (plainCommand .pointerValue)
  | .enc s => do pure (plainCommand (.enc (← asmIndex caseFold a s)))
  | .dec s => do pure (plainCommand (.dec (← asmIndex caseFold a s)))
  | .absorb s => do pure (plainCommand (.absorb (← asmIndex caseFold a s)))
  | .endSession => .ok (plainCommand .endSession)

/-! ### From text to a line's command -/

/-- A lexical token of a line. -/
inductive Token where
  | word (chs : List Char)
  | comma
  | charLit (ch : Char)
  | strLit (chs : List Char)
  deriving DecidableEq, Repr

/-- The tokens with a word gathered so far (in reverse) put before them. -/
def flushWord (acc : List Char) (ts : List Token) : List Token :=
  if acc = [] then ts else .word acc.reverse :: ts

/-- Lexes a line. `str` holds the characters of an open string in reverse; `acc` those of a word.
Blanks separate words; `;` outside a literal starts a comment (R93; DESIGN CHOICE for the blanks, log
entry 16). -/
def lexLine : Option (List Char) → List Char → List Char → Except AsmError (List Token)
  | some _, _, [] => .error .badLine
  | some str, _, ch :: rest =>
    if ch = '"' then do
      let ts ← lexLine none [] rest
      pure (.strLit str.reverse :: ts)
    else lexLine (some (ch :: str)) [] rest
  | none, acc, [] => .ok (flushWord acc [])
  | none, acc, '\'' :: ch :: '\'' :: rest => do
    let ts ← lexLine none [] rest
    pure (flushWord acc (.charLit ch :: ts))
  | none, acc, ch :: rest =>
    if ch = ';' then .ok (flushWord acc [])
    else if ch = '"' then do
      let ts ← lexLine (some []) [] rest
      pure (flushWord acc ts)
    else if ch = ',' then do
      let ts ← lexLine none [] rest
      pure (flushWord acc (.comma :: ts))
    else if ch = ' ' ∨ ch = '\t' then do
      let ts ← lexLine none [] rest
      pure (flushWord acc ts)
    else lexLine none (ch :: acc) rest

/-- A decimal number. -/
def decimal (chs : List Char) : Except AsmError Nat :=
  if chs ≠ [] ∧ chs.all Char.isDigit then
    .ok (chs.foldl (fun n ch => 10 * n + (ch.toNat - 48)) 0)
  else .error .badLine

/-- A `<sym>` operand (R93). -/
def symToken : Token → Except AsmError SymOperand
  | .word chs => do pure (.index (← decimal chs))
  | .charLit ch => .ok (.literal ch)
  | .comma => .error .badLine
  | .strLit _ => .error .badLine

/-- `<sym>` operands separated by commas (R93). -/
def symTokens : List Token → Except AsmError (List SymOperand)
  | [] => .error .badLine
  | [t] => do pure [← symToken t]
  | t :: .comma :: ts => do
    let s ← symToken t
    let ss ← symTokens ts
    pure (s :: ss)
  | _ :: _ => .error .badLine

/-- The one operand of LOCATE, ENC, DEC and ABSORB. -/
def oneSym (f : SymOperand → AsmLine) : List Token → Except AsmError AsmLine
  | [t] => do pure (f (← symToken t))
  | _ => .error .badLine

/-- A command that takes no operand. -/
def noOperand (l : AsmLine) : List Token → Except AsmError AsmLine
  | [] => .ok l
  | _ => .error .badLine

/-- LOAD_KEY's operands: 36 of them, or one string (R93). -/
def keyTokens : List Token → Except AsmError AsmLine
  | [.strLit chs] => .ok (.loadKey (chs.map .literal))
  | ts => do pure (.loadKey (← symTokens ts))

/-- VALUE_AT's operands (R93). -/
def coordTokens : List Token → Except AsmError AsmLine
  | [.word row, .comma, .word col] => do pure (.valueAt (← decimal row) (← decimal col))
  | _ => .error .badLine

/-- The command of a line's tokens, or nothing for an empty line (R93). -/
def parseTokens : List Token → Except AsmError (Option AsmLine)
  | [] => .ok none
  | .word m :: ts => some <$>
    (if m = ['N', 'O', 'P'] then noOperand .nop ts
    else if m = ['L', 'O', 'A', 'D', '_', 'K', 'E', 'Y'] then keyTokens ts
    else if m = ['L', 'O', 'C', 'A', 'T', 'E'] then oneSym .locate ts
    else if m = ['V', 'A', 'L', 'U', 'E', '_', 'A', 'T'] then coordTokens ts
    else if m = ['P', 'O', 'I', 'N', 'T', 'E', 'R', '_', 'V', 'A', 'L', 'U', 'E'] then
      noOperand .pointerValue ts
    else if m = ['E', 'N', 'C'] then oneSym .enc ts
    else if m = ['D', 'E', 'C'] then oneSym .dec ts
    else if m = ['A', 'B', 'S', 'O', 'R', 'B'] then oneSym .absorb ts
    else if m = ['E', 'N', 'D', '_', 'S', 'E', 'S', 'S', 'I', 'O', 'N'] then noOperand .endSession ts
    else .error .badLine)
  | _ => .error .badLine

/-- One line of text to its words; `none` for a line with no command (R93). -/
def assembleLine (p : HostParams) (line : List Char) : Except AsmError (Option Assembled) := do
  let ts ← lexLine none [] line
  match ← parseTokens ts with
  | none => pure none
  | some l =>
    match buildAlphabet p.symbols with
    | .ok a => some <$> assemble p.caseFold a l
    | .error _ => .error .configuration

end Sys2Proof.Machine
end

