-- ==== Sys2Proof/Machine/Message.lean ====
section
/-! DEFINITION. The host's pseudo-instructions (43_session_and_host.md R195 to R198, R208): each is a
sequence of block commands, run one at a time through `step`; and divergence sensitivity (R209), which
compares messages. -/

namespace Sys2Proof.Machine

/-! ### Expansions -/

/-- `ABSORB_STR str` (R196). -/
def absorbStr (vs : List Sym) : List Instr := vs.map fun v => .absorb v.val

/-- `ENC_STR str` (R198). -/
def encStr (vs : List Sym) : List Instr := vs.map fun v => .enc v.val

/-- `DEC_STR str` (R198). -/
def decStr (vs : List Sym) : List Instr := vs.map fun v => .dec v.val

/-- The commands before the payload: LOAD_KEY, the nonce, the header (R195, R197, R254). -/
def sessionPrologue (c : Checked) : List Instr :=
  .loadKey :: (absorbStr c.nonce ++ absorbStr c.header)

/-- The whole of ENCRYPT_MSG's commands (R195). -/
def encryptCommands (c : Checked) : List Instr :=
  sessionPrologue c ++ encStr c.payload ++ [.endSession]

/-- The whole of DECRYPT_MSG's commands (R197). -/
def decryptCommands (c : Checked) : List Instr :=
  sessionPrologue c ++ decStr c.payload ++ [.endSession]

/-! ### Running commands -/

/-- One transaction: the host presents the command and reads the response; any nonzero code abandons
the message (R80, R205, R262). -/
def transact (key : KeyWord) (i : Instr) (s : State) : Except HostError State :=
  match step (s.present (encode i) key) with
  | .next t => if respCode t.resp = 0 then .ok t else .error (.rejected t.lastCode)
  | .fault _ => .error .stopped
  | .refused _ => .error .stopped

/-- Commands one after another, with the response to each. The key word stands on `KEY` throughout,
where only LOAD_KEY reads it (U4). -/
def runCommands (key : KeyWord) : List Instr → State → Except HostError (List Word × State)
  | [], s => .ok ([], s)
  | i :: is, s => do
    let t ← transact key i s
    let r ← runCommands key is t
    pure (t.resp :: r.1, r.2)

/-- The symbol of `RESP.DSYM`; a value above 35 is never produced (X6). -/
def responseSymbol (a : Alphabet) (w : Word) : Except HostError Char :=
  if h : (respDsym w).toNat < 36 then .ok (toSymbol a ⟨(respDsym w).toNat, h⟩) else .error .stopped

/-- The symbols of the payload's responses, in order. -/
def responseSymbols (a : Alphabet) : List Word → Except HostError (List Char)
  | [] => .ok []
  | w :: ws => do
    let ch ← responseSymbol a w
    let chs ← responseSymbols a ws
    pure (ch :: chs)

/-- A message's commands after its checks: prologue, payload, END_SESSION; the output is read from the
payload's responses. -/
def runMessage (c : Checked) (payload : List Instr) (s : State) :
    Except HostError (List Char × State) := do
  let key := keyWordOf c.key
  let opened ← runCommands key (sessionPrologue c) s
  let done ← runCommands key payload opened.2
  let closed ← runCommands key [.endSession] done.2
  let out ← responseSymbols c.alphabet done.1
  pure (out, closed.2)

/-- ENCRYPT_MSG (R195): the signature is appended to the plaintext (R208). -/
def encryptMsg (p : HostParams) (s : State) (key plaintext : List Char)
    (nonce header signature : List Char := []) : Except HostError (List Char × State) := do
  let c ← hostCheck p key nonce header (plaintext ++ signature)
  runMessage c (encStr c.payload) s

/-- DECRYPT_MSG (R197). It has no signature operand and checks none. -/
def decryptMsg (p : HostParams) (s : State) (key ciphertext : List Char)
    (nonce header : List Char := []) : Except HostError (List Char × State) := do
  let c ← hostCheck p key nonce header ciphertext
  runMessage c (decStr c.payload) s

/-! ### Divergence sensitivity (R209) -/

/-- The ciphertext of ENCRYPT_MSG, without the state it leaves. -/
def ciphertextOf (p : HostParams) (s : State) (key plaintext nonce header : List Char) :
    Except HostError (List Char) :=
  (encryptMsg p s key plaintext nonce header).map Prod.fst

/-- A text with the characters at two places exchanged. -/
def exchange (text : List Char) (m n : Nat) : List Char :=
  (text.set m (text.getD n ' ')).set n (text.getD m ' ')

/-- The transpositions of a key: what R209 reads "changing a single character" of the key as. -/
def transpositions (key : List Char) : List (List Char) :=
  (List.range key.length).flatMap fun n => (List.range n).map fun m => exchange key m n

/-- The single changes of a nonce or header: one character replaced by another symbol of the alphabet,
`text` being in canonical case (R209). -/
def replacements (symbols text : List Char) : List (List Char) :=
  (List.range text.length).flatMap fun k =>
    (symbols.filter fun ch => ch ≠ text.getD k ' ').map fun ch => text.set k ch

/-- Whether every single change of the key, nonce or header changes the ciphertext of this input: an
expectation about named inputs, "not a law of the block" (R209). -/
def diverges (p : HostParams) (s : State) (key plaintext nonce header : List Char) : Bool :=
  let own := ciphertextOf p s key plaintext nonce header
  (transpositions key).all (fun key' => ciphertextOf p s key' plaintext nonce header != own) &&
  (replacements p.symbols nonce).all (fun nonce' => ciphertextOf p s key plaintext nonce' header != own) &&
  (replacements p.symbols header).all (fun header' => ciphertextOf p s key plaintext nonce header' != own)

end Sys2Proof.Machine
end

