-- ==== Sys2Proof/Machine/Recorder.lean ====
section
/-! DEFINITION. The History Recorder (43_session_and_host.md R199): a pure observer that reads the
observation port after LOAD_KEY and after each step. -/

namespace Sys2Proof.Machine

/-- The source's state snapshot `(matrix, i, j, r, y, pt?, ct?)` (R17, R199). -/
structure Snapshot where
  S  : Option Tableau
  I  : Option Coord
  J  : Option Coord
  r  : Coord
  y  : Coord
  pt : Option Sym
  ct : Option Sym
  deriving DecidableEq, Repr

/-- `SNAPSHOT_ABSENT`: for NONE both fields, whatever the parameters are (P4). -/
def absentFields (p : RecorderParams) : SnapKind → AbsentFields
  | .noStep => ⟨true, true⟩
  | .absorb => p.absentAbsorb
  | .enc => p.absentEnc
  | .dec => p.absentDec

/-- One snapshot, from the observation port alone (R199). -/
def snapshotOf (p : RecorderParams) (o : Obs) : Snapshot where
  S  := o.S
  I  := o.I
  J  := o.J
  r  := o.snap.r
  y  := match p.ySel with
    | .descriptor => o.snap.y
    | .rotated => o.snap.yr
  pt := if (absentFields p o.snap.kind).pt then none else some o.snap.pt
  ct := if (absentFields p o.snap.kind).ct then none else some o.snap.ct

/-- The commands after which the recorder reads the port: LOAD_KEY, for the initial state, and each
step (R199). -/
def isRecorded : Instr → Bool
  | .nop => false
  | .loadKey => true
  | .locate _ => false
  | .valueAt _ _ => false
  | .pointerValue => false
  | .enc _ => true
  | .dec _ => true
  | .absorb _ => true
  | .endSession => false

/-- The events of the host's stream that are its commands with one key word. -/
def commandEvents (key : KeyWord) (is : List Instr) : List HostEvent :=
  is.map fun i => .command (encode i) key

/-- What the recorder adds after an event that left `t`: a snapshot for each LOAD_KEY that built a
tableau and each command that ran a TRANSITION, and nothing for a command that raised, since it did
neither (R199, R185; DEDUCED, log entry 21). -/
def recordAfter (p : RecorderParams) (e : HostEvent) (t : State) : List Snapshot :=
  match e with
  | .rst => []
  | .command cmd _ =>
    match decode cmd with
    | .ok i => if isRecorded i = true ∧ t.lastCode = .ok then [snapshotOf p t.observe] else []
    | .error _ => []

/-- The snapshots of the host's stream from `s`, in order, to its end: an error is an outcome like
another, and the recording goes on after it. Each LOAD_KEY's snapshot begins its session's sequence.
It is a function of the start and the stream, so a recorder restarts by replaying them (R199, R204). -/
def history (p : RecorderParams) : List HostEvent → State → List Snapshot
  | [], _ => []
  | e :: es, s =>
    match step { s with inputs := e :: s.inputs } with
    | .next t => recordAfter p e t ++ history p es t
    | .fault _ => []
    | .refused _ => []

end Sys2Proof.Machine
end

