-- ==== Sys2Proof/Safety.lean ====
section
/-! DEFINITION. What a safe run is: every step completes, the state keeps the invariants the spec gives
it, and a message runs to its end. -/

namespace Sys2Proof.Machine

/-- The outcome is a next state, not a stop. -/
def Completes (o : Host.Outcome State Fault Refusal) : Prop := ∃ t, o = .next t

/-- A session is live: `V = 1`, with tableau `t` and pointer `(i, j)` (R18, R27). -/
def State.Live (s : State) (t : Tableau) (i j : Coord) : Prop :=
  s.V = true ∧ s.S = some t ∧ s.I = some i ∧ s.J = some j

/-- The commands that need the tableau: LOCATE, VALUE_AT, POINTER_VALUE, ENC, DEC and ABSORB (R223). -/
def needsTableau : Instr → Bool
  | .nop => false
  | .loadKey => false
  | .locate _ => true
  | .valueAt _ _ => true
  | .pointerValue => true
  | .enc _ => true
  | .dec _ => true
  | .absorb _ => true
  | .endSession => false

/-- The commands that take a symbol operand, with it: LOCATE, ENC, DEC and ABSORB (R84, R222). -/
def symbolOf : Instr → Option Nat
  | .nop => none
  | .loadKey => none
  | .locate s => some s
  | .valueAt _ _ => none
  | .pointerValue => none
  | .enc s => some s
  | .dec s => some s
  | .absorb s => some s
  | .endSession => none

/-- The session's invariant: while `V = 1` the tableau is a permutation and the pointer has a value;
while `V = 0` all of them are ⊥ (R23, R25, R26, R27). -/
def State.sessionOk (s : State) : Bool :=
  match s.V, s.S, s.I, s.J with
  | true, some t, some _, some _ => Memory.wf t
  | false, none, none, none => true
  | _, _, _, _ => false

/-- The snapshot's invariant: cleared while no session is live and while no step has run since the
session began; after a step, `SNAP_YR` is `SNAP_Y` after P2 (R31, R32, R39). -/
def State.snapOk (s : State) : Bool :=
  (s.V || decide (s.snap = Snap.cleared)) &&
  (if s.snap.kind = .noStep then decide (s.snap = Snap.cleared)
   else decide (s.snap.yr = if s.snap.x = s.snap.r then inc6 s.snap.y else s.snap.y))

/-- The response's invariant: `RESP.CODE` is `LAST_CODE`, an error carries nothing else, and the data
fields are 0 when `DV` is (R28, R29, R86, X5). -/
def State.respOk (s : State) : Bool :=
  decide (respCode s.resp = s.lastCode.bits) &&
  (decide (s.lastCode = .ok) || decide (s.resp.extractLsb' 0 13 = 0)) &&
  (decide (respDv s.resp = 1) || decide (s.resp.extractLsb' 0 12 = 0))

/-- The invariant of every state a run from reset reaches. -/
def State.Inv (s : State) : Prop :=
  s.sessionOk = true ∧ s.snapOk = true ∧ s.respOk = true

/-- The indices the host holds are those of the texts: each is the place of its character, folded, in
the alphabet the host was given (R200, R201). -/
def Checked.Spells (c : Checked) (p : HostParams) (key nonce header payload : List Char) : Prop :=
  c.alphabet.toList = p.symbols ∧
  c.key.map (toSymbol c.alphabet) = key.map (foldCase p.caseFold) ∧
  c.nonce.map (toSymbol c.alphabet) = nonce.map (foldCase p.caseFold) ∧
  c.header.map (toSymbol c.alphabet) = header.map (foldCase p.caseFold) ∧
  c.payload.map (toSymbol c.alphabet) = payload.map (foldCase p.caseFold)

/-- The commands run from `s` to `t` with every response OK, one command to each of LOAD_KEY, the nonce
and header symbols, the payload symbols and END_SESSION; `out` is, symbol by symbol, `toSymbol` of
`RESP.DSYM` of the payload's responses; and `t` is the reset state but for the ports (R195, R197, R271,
R193). -/
def MessageRun (c : Checked) (commands : List Instr) (s t : State) (out : List Char) : Prop :=
  ∃ (opened replies : List Word) (closed : Word),
    runCommands (keyWordOf c.key) commands s = .ok (opened ++ replies ++ [closed], t) ∧
    (∀ w ∈ opened ++ replies ++ [closed], respCode w = 0) ∧
    opened.length = 1 + c.nonce.length + c.header.length ∧
    replies.length = c.payload.length ∧
    List.Forall₂ (fun ch w => ∃ v : Sym, (respDsym w).toNat = v.val ∧ ch = toSymbol c.alphabet v)
      out replies ∧
    t = { State.reset with keyBus := keyWordOf c.key, inputs := s.inputs }

end Sys2Proof.Machine
end

