-- ==== Sys2Proof/Certificates/Slice0/Obligations.lean ====
section
/-! DEFINITION. The statements for the provers. A docstring names the rule a statement formalises, or, for
a derived one, the spec's sentence or the log entry it rests on. -/

open Sys2Proof Sys2Proof.Machine

/-! ### Reset and the step -/

/-- R39, R20: the reset value of every element. -/
def Obligations.ResetValues : Prop :=
  State.reset.S = none ∧ State.reset.I = none ∧ State.reset.J = none ∧ State.reset.V = false ∧
  State.reset.lastCode.bits = 0 ∧ State.reset.resp = 0x0000 ∧ State.reset.snap.kind.bits = 0 ∧
  State.reset.snap.r = 0 ∧ State.reset.snap.x = 0 ∧ State.reset.snap.y = 0 ∧
  State.reset.snap.yr = 0 ∧ State.reset.snap.pt = 0 ∧ State.reset.snap.ct = 0

/-- R250: `RST` sets every element to its reset value, whatever the state was. The pending events are
the model's (log entry 3). -/
def Obligations.ResetEventResetsEveryElement : Prop :=
  ∀ (s : State) (rest : List HostEvent), s.inputs = .rst :: rest →
    step s = .next
      { S := none, I := none, J := none, V := false, lastCode := .ok, resp := 0x0000,
        snap := ⟨.noStep, 0, 0, 0, 0, 0, 0⟩, keyBus := s.keyBus, inputs := rest }

/-- R251: a reset after a command leaves what a reset in its place leaves: "the command completed and was
then overwritten, or it never ran. Both give the same state." The pending events are the model's (log
entries 3 and 9); the ports are no state. -/
def Obligations.ResetOverwritesACommand : Prop :=
  ∀ (s t : State) (cmd : Word) (key : KeyWord) (rest : List HostEvent),
    s.inputs = .command cmd key :: .rst :: rest → step s = .next t →
    step t = .next { State.reset with keyBus := key, inputs := rest }

/-- R80, R89, R63: a step runs the instruction its command decodes to, with the key word on `KEY` and the
event taken. The pending events are the model's (log entry 3). -/
def Obligations.CommandStepRunsDecodedInstruction : Prop :=
  ∀ (s : State) (cmd : Word) (key : KeyWord) (rest : List HostEvent) (i : Instr),
    s.inputs = .command cmd key :: rest → decode cmd = .ok i →
    step s = exec i { s with keyBus := key, inputs := rest }

/-- R238, R252: with no event pending the block holds its state (log entry 4). -/
def Obligations.IdleStepHoldsState : Prop :=
  ∀ s : State, s.inputs = [] → step s = .next s

/-- R224, R89, R227: a word that spells no row of the opcode table raises ILLEGAL_COMMAND whatever `V` is,
and writes `RESP` and `LAST_CODE` alone. The pending events are the model's (log entry 3). -/
def Obligations.IllegalWordRaisesIllegalCommand : Prop :=
  (∀ w : Word, (∃ why, decode w = .error why) ↔ ∀ row ∈ opcodeTable, row.spells w = false) ∧
  ∀ (s : State) (cmd : Word) (key : KeyWord) (rest : List HostEvent),
    s.inputs = .command cmd key :: rest → (∀ row ∈ opcodeTable, cmd &&& row.mask ≠ row.pattern) →
    step s = .next { s with resp := 0x8000, lastCode := .illegalCommand, keyBus := key, inputs := rest }

/-- A sanity check of the invariant: it holds at reset. -/
def Obligations.ResetMeetsInvariant : Prop := State.reset.Inv

/-- R23, R25, R27, R31, R32, R28, R29, R86, X5 as one invariant: the tableau is a permutation exactly
while `V = 1` and ⊥ otherwise, the snapshot registers are coherent, the response agrees with `LAST_CODE`
and its unused fields are 0. Every step keeps it, from every state that meets it. -/
def Obligations.StepKeepsInvariant : Prop :=
  ∀ s t : State, s.Inv → step s = .next t → t.Inv

/-- R270: "Every command completes"; R14, R53: neither ⊥ nor a missing value is ever read. So from every
state that meets the invariant, whatever the host sends, a step answers a next state. -/
def Obligations.StepNeverStops : Prop :=
  ∀ s : State, s.Inv → Completes (step s)

/-! ### Encoding -/

/-- Every well-formed instruction, with every operand its fields admit, decodes from its word (R84, R89). -/
def Obligations.DecodeOfEncode : Prop :=
  ∀ i : Instr, i.wellFormed = true → decode (encode i) = .ok i

/-- A legal word has one meaning: it is the word of the instruction it decodes to, which is well formed
(R84, R89). -/
def Obligations.EncodeOfDecode : Prop :=
  ∀ (w : Word) (i : Instr), decode w = .ok i → i.wellFormed = true ∧ encode i = w

/-- R84: a word spells a mnemonic exactly when `(w & mask) == match`; the nine patterns never overlap; the
word formulas. -/
def Obligations.TableRowsAreTheDecoder : Prop :=
  (∀ row ∈ opcodeTable, ∀ w : Word,
    w &&& row.mask = row.pattern ↔ ∃ i, decode w = .ok i ∧ i.mnemonic = row.mnemonic) ∧
  (∀ r₁ ∈ opcodeTable, ∀ r₂ ∈ opcodeTable, ∀ w : Word,
    w &&& r₁.mask = r₁.pattern → w &&& r₂.mask = r₂.pattern → r₁ = r₂) ∧
  (∀ s : Nat, s < 64 →
    decode (0x2000 ||| (BitVec.ofNat 16 s <<< 6)) = .ok (.locate s) ∧
    decode (0x5000 ||| (BitVec.ofNat 16 s <<< 6)) = .ok (.enc s) ∧
    decode (0x6000 ||| (BitVec.ofNat 16 s <<< 6)) = .ok (.dec s) ∧
    decode (0x7000 ||| (BitVec.ofNat 16 s <<< 6)) = .ok (.absorb s)) ∧
  (∀ row col : Nat, row < 8 → col < 8 →
    decode (0x3000 ||| (BitVec.ofNat 16 row <<< 3) ||| BitVec.ofNat 16 col) = .ok (.valueAt row col)) ∧
  decode 0x0000 = .ok .nop ∧ decode 0x1000 = .ok .loadKey ∧ decode 0x4000 = .ok .pointerValue ∧
  decode 0x8000 = .ok .endSession

/-- R90: "That makes 4 + 4·64 + 64 = 324 legal words", and every other word is illegal. -/
def Obligations.ThreeHundredTwentyFourLegalWords : Prop :=
  ∃ ws : List Word, ws.Nodup ∧ ws.length = 324 ∧ ∀ w : Word, w ∈ ws ↔ ∃ i, decode w = .ok i

/-- Words written out from R84's patterns, one per family, and two illegal words of R90. -/
def Obligations.SampleWordsDecode : Prop :=
  decode 0b0001000000000000 = .ok .loadKey ∧ decode 0b0010001110000000 = .ok (.locate 14) ∧
  decode 0b0011000000011100 = .ok (.valueAt 3 4) ∧ decode 0b0101011100000000 = .ok (.enc 28) ∧
  decode 0b1000000000000000 = .ok .endSession ∧
  decode 0b1001000000000000 = .error (.reservedOpcode 9) ∧
  decode 0b0101000000000001 = .error (.unusedFieldNonzero 5)

/-- R85: the key word carries entry `k` at `KEY[6k+5:6k]`. -/
def Obligations.KeyWordCarriesEntries : Prop :=
  ∀ (ks : List Sym) (k : Nat) (h : k < ks.length), ks.length = 36 →
    keyEntry (keyWordOf ks) k = (ks[k]).val ∧
    ((keyWordOf ks).extractLsb' (6 * k) 6).toNat = (ks[k]).val ∧
    (keyWordOf ks).toNat = ((List.range 36).map fun j => (ks.getD j 0).val * 2 ^ (6 * j)).sum

/-- R86: the response word's formula, and the zero fields of an error. -/
def Obligations.ResponseWordLayout : Prop :=
  (∀ (code : Code) (dv : Bool) (dsym : BitVec 6) (drow dcol : BitVec 3),
    (respWord code dv dsym drow dcol).toNat =
      code.bits.toNat * 2 ^ 13 + dv.toNat * 2 ^ 12 + dsym.toNat * 2 ^ 6 + drow.toNat * 2 ^ 3 + dcol.toNat ∧
    respCode (respWord code dv dsym drow dcol) = code.bits ∧
    respDv (respWord code dv dsym drow dcol) = BitVec.ofBool dv ∧
    respDsym (respWord code dv dsym drow dcol) = dsym ∧
    respDrow (respWord code dv dsym drow dcol) = drow ∧
    respDcol (respWord code dv dsym drow dcol) = dcol) ∧
  ∀ (i : Instr) (s t : State), exec i s = .next t → respCode t.resp ≠ 0 →
    respDv t.resp = 0 ∧ respDsym t.resp = 0 ∧ respDrow t.resp = 0 ∧ respDcol t.resp = 0

/-- R30: the fields of `STATUS`. -/
def Obligations.StatusLayout : Prop :=
  ∀ s : State, s.status.extractLsb' 0 1 = BitVec.ofBool s.V ∧
    s.status.extractLsb' 1 3 = s.lastCode.bits ∧ s.status.extractLsb' 4 2 = s.snap.kind.bits ∧
    s.status.extractLsb' 6 2 = 0

/-- R36: what `OBS` shows, ⊥ in `S`, `I` and `J` while `V = 0`. -/
def Obligations.ObservationPort : Prop :=
  (∀ s : State, s.V = true → s.observe = ⟨s.S, s.I, s.J, s.status, s.resp, s.snap⟩) ∧
  (∀ s : State, s.V = false → s.observe = ⟨none, none, none, s.status, s.resp, s.snap⟩)

/-! ### Session commands -/

/-- R190: NOP's encoding and its whole effect. -/
def Obligations.NopClearsTheResponse : Prop :=
  (∀ w : Word, decode w = .ok .nop ↔ w = 0x0000) ∧
  ∀ s : State, exec .nop s = .next { s with resp := 0x0000, lastCode := .ok }

/-- R193: END_SESSION's encoding and its whole effect, with or without a session, and that the tableau
commands after it raise NOT_KEYED. -/
def Obligations.EndSessionDiscardsTheTableau : Prop :=
  (∀ w : Word, decode w = .ok .endSession ↔ w = 0x8000) ∧
  (∀ s : State, exec .endSession s = .next
    { s with S := none, I := none, J := none, V := false, snap := ⟨.noStep, 0, 0, 0, 0, 0, 0⟩,
             resp := 0x0000, lastCode := .ok }) ∧
  (∀ (i : Instr) (s t : State), exec .endSession s = .next t → needsTableau i = true →
    exec i t = .next { t with resp := 0x6000, lastCode := .notKeyed })

/-- R27: when `V` changes and when not. -/
def Obligations.ValidBitLifetime : Prop :=
  State.reset.V = false ∧
  (∀ (i : Instr) (s : State), needsTableau i = true → s.V = false →
    exec i s = .next { s with resp := 0x6000, lastCode := .notKeyed }) ∧
  ∀ (i : Instr) (s t : State), exec i s = .next t →
    t.V = match i with
      | .loadKey => if t.lastCode = .ok then true else s.V
      | .endSession => false
      | _ => s.V

/-! ### Tableau commands -/

/-- R111: LOAD_KEY's encoding, its two raises and its success, whatever `V` is. `key k` is
`KEY[6k+5:6k]`. -/
def Obligations.LoadKeyFillsTheTableau : Prop :=
  (∀ w : Word, decode w = .ok .loadKey ↔ w = 0x1000) ∧
  ∀ (s : State) (key : Nat → Nat), (∀ k, key k = (s.keyBus.extractLsb' (6 * k) 6).toNat) →
    ((∃ k, k < 36 ∧ 35 < key k) →
      exec .loadKey s = .next { s with resp := 0x4000, lastCode := .invalidSymbol }) ∧
    ((∀ k, k < 36 → key k ≤ 35) → (∃ k₁ k₂, k₁ < 36 ∧ k₂ < 36 ∧ k₁ ≠ k₂ ∧ key k₁ = key k₂) →
      exec .loadKey s = .next { s with resp := 0x2000, lastCode := .invalidKey }) ∧
    ((∀ k, k < 36 → key k ≤ 35) →
      (∀ k₁ k₂, k₁ < 36 → k₂ < 36 → key k₁ = key k₂ → k₁ = k₂) →
      ∃ T : Tableau, (∀ k : Fin 36, (valueAt T ⟨k.val / 6, by omega⟩ ⟨k.val % 6, by omega⟩).val = key k) ∧
        exec .loadKey s = .next
          { s with S := some T, I := some 0, J := some 0, V := true,
                   snap := ⟨.noStep, 0, 0, 0, 0, 0, 0⟩, resp := 0x0000, lastCode := .ok })

/-- R112, with its derived sentence that the check is the source's "multiset of indices == {0,...,35}":
LOAD_KEY always completes, succeeds exactly on a permutation of 0..35, and otherwise leaves `S`, `I`,
`J`, `V` and the snapshot as they were. -/
def Obligations.LoadKeyAcceptsExactlyPermutations : Prop :=
  ∀ s : State, ∃ t : State, exec .loadKey s = .next t ∧
    (t.lastCode = .ok ↔ ((List.range 36).map (keyEntry s.keyBus)).Perm (List.range 36)) ∧
    (t.lastCode ≠ .ok → t.S = s.S ∧ t.I = s.I ∧ t.J = s.J ∧ t.V = s.V ∧ t.snap = s.snap)

/-- R204's derived sentence "The state after LOAD_KEY depends on the key word alone" (also R113): nothing
of the old state survives a successful load. -/
def Obligations.LoadKeyForgetsTheOldState : Prop :=
  ∀ s₁ s₂ t₁ : State, s₁.keyBus = s₂.keyBus → exec .loadKey s₁ = .next t₁ → t₁.lastCode = .ok →
    exec .loadKey s₂ = .next { t₁ with inputs := s₂.inputs }

/-- R120: LOCATE's encoding, its raises in order, and its answer, the one place of the value. -/
def Obligations.LocateAnswersThePlace : Prop :=
  (∀ (w : Word) (n : Nat), decode w = .ok (.locate n) ↔
    n < 64 ∧ w = 0x2000 ||| (BitVec.ofNat 16 n <<< 6)) ∧
  (∀ (s : State) (n : Nat), s.V = false →
    exec (.locate n) s = .next { s with resp := 0x6000, lastCode := .notKeyed }) ∧
  (∀ (s : State) (n : Nat), s.V = true → 35 < n →
    exec (.locate n) s = .next { s with resp := 0x4000, lastCode := .invalidSymbol }) ∧
  (∀ (s : State) (T : Tableau) (i j : Coord) (n : Nat), s.Live T i j → Memory.wf T = true → n ≤ 35 →
    ∃ r c : Coord, (valueAt T r c).val = n ∧
      (∀ r' c' : Coord, (valueAt T r' c').val = n → r' = r ∧ c' = c) ∧
      exec (.locate n) s =
        .next { s with resp := BitVec.ofNat 16 (0x1000 + 8 * r.val + c.val), lastCode := .ok }) ∧
  (∀ (s t : State) (n : Nat), exec (.locate n) s = .next t → exec (.locate n) t = .next t)

/-- R125: VALUE_AT's encoding, its raises in order, and its answer. -/
def Obligations.ValueAtAnswersTheCell : Prop :=
  (∀ (w : Word) (row col : Nat), decode w = .ok (.valueAt row col) ↔
    row < 8 ∧ col < 8 ∧ w = 0x3000 ||| (BitVec.ofNat 16 row <<< 3) ||| BitVec.ofNat 16 col) ∧
  (∀ (s : State) (row col : Nat), s.V = false →
    exec (.valueAt row col) s = .next { s with resp := 0x6000, lastCode := .notKeyed }) ∧
  (∀ (s : State) (row col : Nat), s.V = true → 5 < row ∨ 5 < col →
    exec (.valueAt row col) s = .next { s with resp := 0xA000, lastCode := .badCoord }) ∧
  (∀ (s : State) (T : Tableau) (i j : Coord) (row col : Nat) (hr : row ≤ 5) (hc : col ≤ 5),
    s.Live T i j → exec (.valueAt row col) s =
      .next { s with resp := BitVec.ofNat 16 (0x1000 +
                2 ^ 6 * (valueAt T ⟨row, by omega⟩ ⟨col, by omega⟩).val), lastCode := .ok }) ∧
  (∀ (s t : State) (row col : Nat), exec (.valueAt row col) s = .next t →
    exec (.valueAt row col) t = .next t)

/-- R130: POINTER_VALUE's encoding, its raise, and its answer. -/
def Obligations.PointerValueAnswersThePointedCell : Prop :=
  (∀ w : Word, decode w = .ok .pointerValue ↔ w = 0x4000) ∧
  (∀ s : State, s.V = false →
    exec .pointerValue s = .next { s with resp := 0x6000, lastCode := .notKeyed }) ∧
  (∀ (s : State) (T : Tableau) (i j : Coord), s.Live T i j → exec .pointerValue s =
    .next { s with resp := BitVec.ofNat 16 (0x1000 + 2 ^ 6 * (valueAt T i j).val + 8 * i.val + j.val),
                   lastCode := .ok })

/-! ### The rotation engine and the pointer controller -/

/-- R54, R55: every cell after a rotation. -/
def Obligations.RotationsMoveOneLine : Prop :=
  (∀ (t : Tableau) (r a c : Coord), valueAt (rotRowRight r t) a c =
    if a = r then valueAt t a ⟨(c.val + 5) % 6, by omega⟩ else valueAt t a c) ∧
  (∀ (t : Tableau) (y a c : Coord), valueAt (rotColDown y t) a c =
    if c = y then valueAt t ⟨(a.val + 5) % 6, by omega⟩ c else valueAt t a c)

/-- R57, derived there from R54 and R55: where a value's place goes. -/
def Obligations.RotationsMoveValues : Prop :=
  (∀ (t : Tableau) (r c : Coord), valueAt (rotRowRight r t) r (c + 1) = valueAt t r c) ∧
  (∀ (t : Tableau) (r a c : Coord), a ≠ r → valueAt (rotRowRight r t) a c = valueAt t a c) ∧
  (∀ (t : Tableau) (y k : Coord), valueAt (rotColDown y t) (k + 1) y = valueAt t k y) ∧
  (∀ (t : Tableau) (y k c : Coord), c ≠ y → valueAt (rotColDown y t) k c = valueAt t k c)

/-- R151 to R154: the pointer controller's units; that they are arithmetic mod 6 is the spec's own
derivation. -/
def Obligations.PointerUnitsAreArithmeticModSix : Prop :=
  (∀ a : Coord, (inc6 a).val = (a.val + 1) % 6) ∧
  (∀ a b : Coord, (add6 a b).val = (a.val + b.val) % 6) ∧
  (∀ a b : Coord, ((sub6 a b).val : Int) = ((a.val : Int) - (b.val : Int)) % 6) ∧
  (∀ v : Sym, v.val = 6 * (rowOffset v).val + (colOffset v).val ∧
    (rowOffset v).val = v.val / 6 ∧ (colOffset v).val = v.val % 6)

/-- R141: the seven sub-steps, each on the results of the ones before it. `s1` is `S` after P1, `yr` the
column after P2, `j3` is `J` after P3, `i5` is `I` after P5. -/
def Obligations.TransitionRunsSevenSubSteps : Prop :=
  ∀ (d : Descriptor) (k : Keyed) (s1 : Coord → Coord → Sym) (yr j3 i5 : Coord),
    (∀ a c, s1 a c = if a = d.r then valueAt k.S a (c - 1) else valueAt k.S a c) →
    yr = (if d.x = d.r then d.y + 1 else d.y) →
    j3 = (if k.I = d.r then k.J + 1 else k.J) →
    i5 = (if j3 = yr then k.I + 1 else k.I) →
    rotatedColumn d = yr ∧
    (∀ a c, valueAt (transition d k).S a c = if c = yr then s1 (a - 1) c else s1 a c) ∧
    (transition d k).I.val = (i5.val + d.ct.val / 6) % 6 ∧
    (transition d k).J.val = (j3.val + d.ct.val % 6) % 6

/-- R148, derived there: P1 to P5 carry the pointer with the cell it points at, and P6 and P7 move it from
there by `(ct div 6, ct mod 6)`. -/
def Obligations.PointerFollowsItsCell : Prop :=
  ∀ (d : Descriptor) (k : Keyed),
    valueAt (transition d k).S ((transition d k).I - rowOffset d.ct) ((transition d k).J - colOffset d.ct)
      = valueAt k.S k.I k.J

/-- R149, derived there: the rotated column is the one that holds `ct` after P1, and `ct` ends one row
below its target row. -/
def Obligations.TargetFollowsCiphertext : Prop :=
  ∀ (d : Descriptor) (k : Keyed), valueAt k.S d.x d.y = d.ct →
    valueAt (rotRowRight d.r k.S) d.x (rotatedColumn d) = d.ct ∧
    valueAt (transition d k).S (d.x + 1) (rotatedColumn d) = d.ct

/-- R150, derived there: TRANSITION keeps a permutation a permutation. -/
def Obligations.TransitionKeepsPermutation : Prop :=
  ∀ (d : Descriptor) (k : Keyed), Memory.wf k.S = true →
    Memory.wf (transition d k).S = true ∧ ∀ v : Sym, ∃! p : Coord × Coord,
      valueAt (transition d k).S p.1 p.2 = v

/-- R156, derived there: TRANSITION writes row `r` and column `yr` only. -/
def Obligations.TransitionWritesOneRowAndOneColumn : Prop :=
  ∀ (d : Descriptor) (k : Keyed) (a c : Coord), a ≠ d.r → c ≠ rotatedColumn d →
    valueAt (transition d k).S a c = valueAt k.S a c

/-! ### Step commands -/

/-- R161: ENC's encoding, its raises in order, and its whole effect on a live session. -/
def Obligations.EncRunsOneTransition : Prop :=
  (∀ (w : Word) (n : Nat), decode w = .ok (.enc n) ↔
    n < 64 ∧ w = 0x5000 ||| (BitVec.ofNat 16 n <<< 6)) ∧
  (∀ (s : State) (n : Nat), s.V = false →
    exec (.enc n) s = .next { s with resp := 0x6000, lastCode := .notKeyed }) ∧
  (∀ (s : State) (n : Nat), s.V = true → 35 < n →
    exec (.enc n) s = .next { s with resp := 0x4000, lastCode := .invalidSymbol }) ∧
  (∀ (s : State) (T : Tableau) (i j : Coord) (n : Nat), s.Live T i j → Memory.wf T = true → n ≤ 35 →
    ∃ (r c x y yr : Coord) (pt v ct : Sym) (k : Keyed),
      pt.val = n ∧ valueAt T r c = pt ∧ v = valueAt T i j ∧ x = r + rowOffset v ∧ y = c + colOffset v ∧
      ct = valueAt T x y ∧ k = transition ⟨r, x, y, ct⟩ ⟨T, i, j⟩ ∧ yr = (if x = r then y + 1 else y) ∧
      exec (.enc n) s = .next
        { s with S := some k.S, I := some k.I, J := some k.J, snap := ⟨.enc, r, x, y, yr, pt, ct⟩,
                 resp := BitVec.ofNat 16 (0x1000 + 2 ^ 6 * ct.val), lastCode := .ok })

/-- R171: DEC's encoding, its raises in order, and its whole effect on a live session. -/
def Obligations.DecRunsOneTransition : Prop :=
  (∀ (w : Word) (n : Nat), decode w = .ok (.dec n) ↔
    n < 64 ∧ w = 0x6000 ||| (BitVec.ofNat 16 n <<< 6)) ∧
  (∀ (s : State) (n : Nat), s.V = false →
    exec (.dec n) s = .next { s with resp := 0x6000, lastCode := .notKeyed }) ∧
  (∀ (s : State) (n : Nat), s.V = true → 35 < n →
    exec (.dec n) s = .next { s with resp := 0x4000, lastCode := .invalidSymbol }) ∧
  (∀ (s : State) (T : Tableau) (i j : Coord) (n : Nat), s.Live T i j → Memory.wf T = true → n ≤ 35 →
    ∃ (r c x y yr : Coord) (pt v ct : Sym) (k : Keyed),
      ct.val = n ∧ valueAt T x y = ct ∧ v = valueAt T i j ∧ r = x - rowOffset v ∧ c = y - colOffset v ∧
      pt = valueAt T r c ∧ k = transition ⟨r, x, y, ct⟩ ⟨T, i, j⟩ ∧ yr = (if x = r then y + 1 else y) ∧
      exec (.dec n) s = .next
        { s with S := some k.S, I := some k.I, J := some k.J, snap := ⟨.dec, r, x, y, yr, pt, ct⟩,
                 resp := BitVec.ofNat 16 (0x1000 + 2 ^ 6 * pt.val), lastCode := .ok })

/-- R181: ABSORB's encoding, its raises in order, and its whole effect on a live session. -/
def Obligations.AbsorbRunsOneTransition : Prop :=
  (∀ (w : Word) (n : Nat), decode w = .ok (.absorb n) ↔
    n < 64 ∧ w = 0x7000 ||| (BitVec.ofNat 16 n <<< 6)) ∧
  (∀ (s : State) (n : Nat), s.V = false →
    exec (.absorb n) s = .next { s with resp := 0x6000, lastCode := .notKeyed }) ∧
  (∀ (s : State) (n : Nat), s.V = true → 35 < n →
    exec (.absorb n) s = .next { s with resp := 0x4000, lastCode := .invalidSymbol }) ∧
  (∀ (s : State) (T : Tableau) (i j : Coord) (n : Nat), s.Live T i j → Memory.wf T = true → n ≤ 35 →
    ∃ (r c x y yr : Coord) (pt v ct : Sym) (k : Keyed),
      pt.val = n ∧ valueAt T r c = pt ∧ v = valueAt T i j ∧ x = r + rowOffset v ∧ y = c + colOffset v ∧
      ct = valueAt T x y ∧ k = transition ⟨r, x, y, ct⟩ ⟨T, i, j⟩ ∧ yr = (if x = r then y + 1 else y) ∧
      exec (.absorb n) s = .next
        { s with S := some k.S, I := some k.I, J := some k.J, snap := ⟨.absorb, r, x, y, yr, pt, ct⟩,
                 resp := 0x0000, lastCode := .ok })

/-- R175, derived there from R161 and R171: ENC and DEC invert each other step by step, and leave the same
state but for `SNAP_KIND` and `RESP`. -/
def Obligations.EncAndDecInvertEachOther : Prop :=
  ∀ (s : State) (T : Tableau) (i j : Coord) (n m : Nat),
    s.Live T i j → Memory.wf T = true → n ≤ 35 → m ≤ 35 →
    ((∃ t, exec (.enc n) s = .next t ∧ (respDsym t.resp).toNat = m) ↔
      (∃ u, exec (.dec m) s = .next u ∧ (respDsym u.resp).toNat = n)) ∧
    (∀ t u, exec (.enc n) s = .next t → (respDsym t.resp).toNat = m → exec (.dec m) s = .next u →
      u = { t with resp := u.resp, snap := { t.snap with kind := .dec } } ∧
        (respDsym u.resp).toNat = n)

/-- R176, derived there: on a fixed keyed state ENC is a permutation of 0..35 and DEC its inverse. -/
def Obligations.EncIsABijection : Prop :=
  ∀ (s : State) (T : Tableau) (i j : Coord), s.Live T i j → Memory.wf T = true →
    ∃ f : Sym → Sym, Function.Bijective f ∧ ∀ pt : Sym,
      (∃ t, exec (.enc pt.val) s = .next t ∧ (respDsym t.resp).toNat = (f pt).val) ∧
      (∃ u, exec (.dec (f pt).val) s = .next u ∧ (respDsym u.resp).toNat = pt.val)

/-- R182, derived there: from any state, ABSORB leaves what ENC leaves, but for `SNAP_KIND` and `RESP`. -/
def Obligations.AbsorbIsEncWithoutOutput : Prop :=
  ∀ (s : State) (n : Nat),
    (∀ f, exec (.absorb n) s = .fault f ↔ exec (.enc n) s = .fault f) ∧
    (∀ t, exec (.enc n) s = .next t → ∃ u, exec (.absorb n) s = .next u ∧
      (t.lastCode ≠ .ok → u = t) ∧
      (t.lastCode = .ok → t.snap.kind = .enc ∧
        u = { t with snap := { t.snap with kind := .absorb }, resp := 0x0000 }))

/-! ### Errors -/

/-- R221, R222, R223, R225: what raises each code and that nothing else does. Priority is R227's. -/
def Obligations.ErrorsHaveTheirCauses : Prop :=
  (∀ (i : Instr) (s : State), needsTableau i = true → s.V = false →
    exec i s = .next { s with resp := 0x6000, lastCode := .notKeyed }) ∧
  (∀ (i : Instr) (s : State) (n : Nat), s.V = true → symbolOf i = some n → 35 < n →
    exec i s = .next { s with resp := 0x4000, lastCode := .invalidSymbol }) ∧
  (∀ (s : State) (row col : Nat), s.V = true → 5 < row ∨ 5 < col →
    exec (.valueAt row col) s = .next { s with resp := 0xA000, lastCode := .badCoord }) ∧
  (∀ s : State, (∃ k, k < 36 ∧ 35 < keyEntry s.keyBus k) →
    exec .loadKey s = .next { s with resp := 0x4000, lastCode := .invalidSymbol }) ∧
  (∀ s : State, (∀ k, k < 36 → keyEntry s.keyBus k ≤ 35) →
    (∃ k₁ k₂, k₁ < 36 ∧ k₂ < 36 ∧ k₁ ≠ k₂ ∧ keyEntry s.keyBus k₁ = keyEntry s.keyBus k₂) →
    exec .loadKey s = .next { s with resp := 0x2000, lastCode := .invalidKey }) ∧
  (∀ (i : Instr) (s t : State), exec i s = .next t →
    (t.lastCode = .notKeyed → needsTableau i = true ∧ s.V = false) ∧
    (t.lastCode = .invalidSymbol → (i = .loadKey ∧ ∃ k, k < 36 ∧ 35 < keyEntry s.keyBus k) ∨
      (s.V = true ∧ ∃ n, symbolOf i = some n ∧ 35 < n)) ∧
    (t.lastCode = .badCoord → s.V = true ∧ ∃ row col, i = .valueAt row col ∧ (5 < row ∨ 5 < col)) ∧
    (t.lastCode = .invalidKey → i = .loadKey ∧ (∀ k, k < 36 → keyEntry s.keyBus k ≤ 35) ∧
      ∃ k₁ k₂, k₁ < 36 ∧ k₂ < 36 ∧ k₁ ≠ k₂ ∧ keyEntry s.keyBus k₁ = keyEntry s.keyBus k₂) ∧
    t.lastCode ≠ .illegalCommand)

/-- R220, R229: an error, of whatever command, writes `RESP` (its code, zeros elsewhere) and `LAST_CODE`
and nothing else. -/
def Obligations.ErrorsChangeNothingElse : Prop :=
  ∀ (i : Instr) (s t : State), exec i s = .next t → t.lastCode ≠ .ok →
    t = { s with resp := BitVec.ofNat 16 (0x2000 * t.lastCode.bits.toNat), lastCode := t.lastCode }

/-- R230, derived there from R227: re-issuing a failing command fails the same way. -/
def Obligations.FailingCommandFailsAgain : Prop :=
  ∀ (i : Instr) (s t : State), exec i s = .next t → t.lastCode ≠ .ok → exec i t = .next t

/-- R14, U1, log entry 1: a command that passed `V = 1` and its operand checks and then reads ⊥ is a fault,
never a value: ⊥ in `S` for the six tableau commands, ⊥ in any of `S`, `I` and `J` for the four that read
the pointer. No state that meets the invariant is such a state. -/
def Obligations.ReadingBottomFaults : Prop :=
  ∀ s : State, s.V = true →
    (s.S = none →
      (∀ row col, row ≤ 5 → col ≤ 5 → exec (.valueAt row col) s = .fault .bottomRead) ∧
      (∀ n, n ≤ 35 → exec (.locate n) s = .fault .bottomRead)) ∧
    (s.S = none ∨ s.I = none ∨ s.J = none →
      exec .pointerValue s = .fault .bottomRead ∧
      (∀ n, n ≤ 35 → exec (.enc n) s = .fault .bottomRead ∧ exec (.dec n) s = .fault .bottomRead ∧
        exec (.absorb n) s = .fault .bottomRead))

/-! ### Frames -/

/-- R60, R24: NOP, LOCATE, VALUE_AT and POINTER_VALUE write `RESP` and `LAST_CODE` and nothing else, and
repeating one gives the same state. -/
def Obligations.QueriesWriteOnlyTheResponse : Prop :=
  ∀ (i : Instr) (s t : State),
    (i = .nop ∨ (∃ n, i = .locate n) ∨ (∃ row col, i = .valueAt row col) ∨ i = .pointerValue) →
    exec i s = .next t →
    t = { s with resp := t.resp, lastCode := t.lastCode } ∧ exec i t = .next t

/-- R24, R60, R156, R185: what ENC, DEC and ABSORB leave unchanged. The row and column stored to are those
of the descriptor the meaning computes. -/
def Obligations.StepCommandsFrame : Prop :=
  (∀ (i : Instr) (s t : State), ((∃ n, i = .enc n) ∨ (∃ n, i = .dec n) ∨ (∃ n, i = .absorb n)) →
    exec i s = .next t →
    t.V = s.V ∧ t.keyBus = s.keyBus ∧ t.inputs = s.inputs ∧
    (t.lastCode ≠ .ok → t.S = s.S ∧ t.I = s.I ∧ t.J = s.J ∧ t.snap = s.snap)) ∧
  (∀ (s t : State) (k : Keyed) (pt : Sym) (e : StepValues), readKeyed s = .ok k →
    encryptStep k pt = .ok e → (exec (.enc pt.val) s = .next t ∨ exec (.absorb pt.val) s = .next t) →
    t.lastCode = .ok → ∃ T, t.S = some T ∧ ∀ a c, a ≠ e.d.r → c ≠ rotatedColumn e.d →
      valueAt T a c = valueAt k.S a c) ∧
  (∀ (s t : State) (k : Keyed) (ct : Sym) (e : StepValues), readKeyed s = .ok k →
    decryptStep k ct = .ok e → exec (.dec ct.val) s = .next t →
    t.lastCode = .ok → ∃ T, t.S = some T ∧ ∀ a c, a ≠ e.d.r → c ≠ rotatedColumn e.d →
      valueAt T a c = valueAt k.S a c)

/-- R20, R38 (log entry 3): no command writes the ports or the host's pending events; and no command
changes `S`, `I`, `J` or `V` but LOAD_KEY, ENC, DEC, ABSORB and END_SESSION (R22, R24, R27). -/
def Obligations.EveryCommandLeavesThePorts : Prop :=
  ∀ (i : Instr) (s t : State), exec i s = .next t → t.keyBus = s.keyBus ∧ t.inputs = s.inputs ∧
    (i ≠ .loadKey → i ≠ .endSession → (∀ n, i ≠ .enc n) → (∀ n, i ≠ .dec n) → (∀ n, i ≠ .absorb n) →
      t.S = s.S ∧ t.I = s.I ∧ t.J = s.J ∧ t.V = s.V)

/-- R80, R35, U4: a command other than LOAD_KEY ignores what stands on `KEY`. -/
def Obligations.KeyIsIgnoredUnlessLoaded : Prop :=
  ∀ (i : Instr) (s : State) (key : KeyWord), i ≠ .loadKey →
    (∀ t, exec i s = .next t → exec i { s with keyBus := key } = .next { t with keyBus := key }) ∧
    (∀ f, exec i s = .fault f → exec i { s with keyBus := key } = .fault f)

/-- R32: who writes the snapshot registers and with what; and they influence nothing else. -/
def Obligations.SnapshotIsAPureObserver : Prop :=
  (∀ (i : Instr) (s t : State), exec i s = .next t →
    (t.lastCode ≠ .ok → t.snap = s.snap) ∧
    (t.lastCode = .ok → match i with
      | .nop | .locate _ | .valueAt _ _ | .pointerValue => t.snap = s.snap
      | .loadKey | .endSession => t.snap = ⟨.noStep, 0, 0, 0, 0, 0, 0⟩
      | .enc n => t.snap.kind = .enc ∧ t.snap.pt.val = n ∧ t.snap.ct.val = (respDsym t.resp).toNat
      | .dec n => t.snap.kind = .dec ∧ t.snap.ct.val = n ∧ t.snap.pt.val = (respDsym t.resp).toNat
      | .absorb n => t.snap.kind = .absorb ∧ t.snap.pt.val = n)) ∧
  (∀ (i : Instr) (s t : State) (n : Snap), exec i s = .next t →
    ∃ u, exec i { s with snap := n } = .next u ∧ u = { t with snap := u.snap })

/-! ### The host's side -/

/-- R200: `toIndex` inverts `toSymbol`, and `toSymbol` gives back the symbol in its canonical case. The
premise, that case folding leaves the alphabet's own symbols alone, is the model's reading (log entry
14). -/
def Obligations.AlphabetIndexAndSymbolInvert : Prop :=
  ∀ (symbols : List Char) (caseFold : Bool) (a : Alphabet), buildAlphabet symbols = .ok a →
    (caseFold = true → ∀ ch ∈ symbols, ch.toLower = ch) →
    (∀ v : Sym, toIndex caseFold a (toSymbol a v) = .ok v) ∧
    (∀ (ch : Char) (v : Sym), toIndex caseFold a ch = .ok v ↔ toSymbol a v = foldCase caseFold ch) ∧
    (∀ ch : Char, foldCase caseFold ch ∉ symbols → toIndex caseFold a ch = .error .invalidSymbol)

/-- R200, R201, R202 with log entry 12: what the host checks before any command of ENCRYPT_MSG or
DECRYPT_MSG, and in which order; and that a message with none of the faults passes. `payload` is the
plaintext with the signature, or the ciphertext. -/
def Obligations.HostChecksComeFirst : Prop :=
  ∀ (p : HostParams) (s : State) (key nonce header payload : List Char)
    (answer : Except HostError (List Char × State)),
    ((∃ plaintext signature, payload = plaintext ++ signature ∧
        answer = encryptMsg p s key plaintext nonce header signature) ∨
      answer = decryptMsg p s key payload nonce header) →
    (¬ (p.symbols.length = 36 ∧ p.symbols.Nodup) → answer = .error .configuration) ∧
    (p.symbols.length = 36 → p.symbols.Nodup →
      ((∃ ch ∈ key, foldCase p.caseFold ch ∉ p.symbols) → answer = .error .invalidSymbol) ∧
      ((∀ ch ∈ key, foldCase p.caseFold ch ∈ p.symbols) →
        (key.length ≠ 36 ∨ ¬ (key.map (foldCase p.caseFold)).Nodup → answer = .error .invalidKey) ∧
        (key.length = 36 → (key.map (foldCase p.caseFold)).Nodup →
          ((∃ ch ∈ nonce ++ header ++ payload, foldCase p.caseFold ch ∉ p.symbols) →
            answer = .error .invalidSymbol) ∧
          ((∀ ch ∈ nonce ++ header ++ payload, foldCase p.caseFold ch ∈ p.symbols) →
            (∃ c, hostCheck p key nonce header payload = .ok c) ∧ ∃ r, answer = .ok r))))

/-- R195, R271: ENCRYPT_MSG is its command sequence: LOAD_KEY, one ABSORB per nonce and header symbol, one
ENC per payload symbol, END_SESSION, run to the end from any state, with every response OK; its output is
the symbols of the ENC responses. -/
def Obligations.EncryptMessageIsItsCommands : Prop :=
  ∀ (p : HostParams) (s : State) (key plaintext nonce header signature : List Char) (c : Checked),
    hostCheck p key nonce header (plaintext ++ signature) = .ok c →
    c.Spells p key nonce header (plaintext ++ signature) ∧
    encryptCommands c = [.loadKey] ++ c.nonce.map (fun v => .absorb v.val) ++
      c.header.map (fun v => .absorb v.val) ++ c.payload.map (fun v => .enc v.val) ++ [.endSession] ∧
    (encryptCommands c).length =
      1 + nonce.length + header.length + plaintext.length + signature.length + 1 ∧
    ∃ (out : List Char) (t : State),
      encryptMsg p s key plaintext nonce header signature = .ok (out, t) ∧
      out.length = plaintext.length + signature.length ∧ MessageRun c (encryptCommands c) s t out

/-- R207, derived there from R195, R197 and R175: decrypting gives the payload back, whatever states the
two sessions start from. The premise on the alphabet and the canonical case of the result are the
model's reading (log entry 14). -/
def Obligations.DecryptingGivesThePlaintextBack : Prop :=
  ∀ (p : HostParams) (s s' : State) (key plaintext nonce header signature : List Char) (c : Checked),
    (p.caseFold = true → ∀ ch ∈ p.symbols, ch.toLower = ch) →
    hostCheck p key nonce header (plaintext ++ signature) = .ok c →
    ∃ (out : List Char) (t t' : State),
      encryptMsg p s key plaintext nonce header signature = .ok (out, t) ∧
      decryptMsg p s' key out nonce header =
        .ok ((plaintext ++ signature).map (foldCase p.caseFold), t')

/-- R208, derived there from R195: a signature is a suffix of the plaintext. -/
def Obligations.SignatureIsAppended : Prop :=
  ∀ (p : HostParams) (s : State) (key plaintext nonce header signature : List Char),
    encryptMsg p s key plaintext nonce header signature =
      encryptMsg p s key (plaintext ++ signature) nonce header []

/-- R204, derived there: ENCRYPT_MSG and DECRYPT_MSG are functions of their arguments; the state the block
was in does not matter. And the counterexamples to divergence sensitivity, under the default alphabet and
the known key, from any state: the nonces `solwbf` and `nolwbf`, which R209 names, and `silwbf` and
`solwbs`, which 95_test_vectors.md section 5 adds, all give the plaintext `i` the ciphertext `i`, so
divergence sensitivity fails for that input; the known vector's plaintext, as R209 also says, tells the
first two nonces apart. -/
def Obligations.MessagesIgnoreTheOldState : Prop :=
  (∀ (p : HostParams) (s₁ s₂ : State) (key text nonce header signature : List Char),
    (encryptMsg p s₁ key text nonce header signature).map Prod.fst =
      (encryptMsg p s₂ key text nonce header signature).map Prod.fst ∧
    (decryptMsg p s₁ key text nonce header).map Prod.fst =
      (decryptMsg p s₂ key text nonce header).map Prod.fst) ∧
  ∀ s : State,
    let p : HostParams := ⟨Config.defaultSymbols, true⟩
    ciphertextOf p s Config.knownKey ['i'] ['s', 'o', 'l', 'w', 'b', 'f'] [] = .ok ['i'] ∧
    ciphertextOf p s Config.knownKey ['i'] ['n', 'o', 'l', 'w', 'b', 'f'] [] = .ok ['i'] ∧
    ciphertextOf p s Config.knownKey ['i'] ['s', 'i', 'l', 'w', 'b', 'f'] [] = .ok ['i'] ∧
    ciphertextOf p s Config.knownKey ['i'] ['s', 'o', 'l', 'w', 'b', 's'] [] = .ok ['i'] ∧
    diverges p s Config.knownKey ['i'] Config.knownNonce [] = false ∧
    ciphertextOf p s Config.knownKey Config.knownPlaintext ['n', 'o', 'l', 'w', 'b', 'f'] [] ≠
      ciphertextOf p s Config.knownKey Config.knownPlaintext Config.knownNonce []

/-- R199: over any stream of events from any state, the recorder adds one snapshot for each LOAD_KEY, ENC,
DEC or ABSORB that succeeds, that of the state after it, and nothing for any other event, and goes on
after each, an error included (that a command that raises leaves no snapshot is read from the rule, log
entry 21). For a message, of either direction, its sequence has the initial state, with the key's
tableau and the pointer at (0, 0), and then one snapshot per TRANSITION: snapshot `k` is of the state
after the first `k + 1` commands. -/
def Obligations.HistoryHasOneSnapshotPerTransition : Prop :=
  (∀ (q : RecorderParams) (s t : State) (cmd : Word) (key : KeyWord) (es : List HostEvent),
    step { s with inputs := .command cmd key :: s.inputs } = .next t →
    let recorded := decode cmd = .ok .loadKey ∨
      ∃ n, decode cmd = .ok (.enc n) ∨ decode cmd = .ok (.dec n) ∨ decode cmd = .ok (.absorb n)
    (t.lastCode = .ok → recorded →
      history q (.command cmd key :: es) s = snapshotOf q t.observe :: history q es t) ∧
    (t.lastCode ≠ .ok ∨ ¬ recorded → history q (.command cmd key :: es) s = history q es t)) ∧
  (∀ (q : RecorderParams) (s t : State) (es : List HostEvent),
    step { s with inputs := .rst :: s.inputs } = .next t →
    history q (.rst :: es) s = history q es t) ∧
  ∀ (p : HostParams) (q : RecorderParams) (s : State) (key payload nonce header : List Char)
    (c : Checked) (commands : List Instr), hostCheck p key nonce header payload = .ok c →
    commands = encryptCommands c ∨ commands = decryptCommands c →
    ∃ (first : State) (later : List State) (T : Tableau),
      history q (commandEvents (keyWordOf c.key) commands) s =
        (first :: later).map (fun t => snapshotOf q t.observe) ∧
      later.length = nonce.length + header.length + payload.length ∧
      (∀ k t, (first :: later)[k]? = some t →
        ∃ rs, runCommands (keyWordOf c.key) (commands.take (k + 1)) s = .ok (rs, t)) ∧
      snapshotOf q first.observe = ⟨some T, some 0, some 0, 0, 0, none, none⟩ ∧
      ∀ row col : Coord, c.key[6 * row.val + col.val]? = some (valueAt T row col)

/-- R93: what the assembler makes of each form of a line: the instruction, its word by R84, and for
LOAD_KEY the key word by R85. A `<sym>` operand is an index 0..63 or a literal of the alphabet; anything
else is an error and gives no word. -/
def Obligations.AssembledWordDecodes : Prop :=
  ∀ (caseFold : Bool) (a : Alphabet),
    (∀ n m : Nat, asmIndex caseFold a (.index n) = .ok m ↔ n < 64 ∧ m = n) ∧
    (∀ (ch : Char) (m : Nat), asmIndex caseFold a (.literal ch) = .ok m ↔
      ∃ v : Sym, toIndex caseFold a ch = .ok v ∧ m = v.val) ∧
    (∀ ch : Char, foldCase caseFold ch ∉ a.toList →
      asmIndex caseFold a (.literal ch) = .error .invalidSymbol) ∧
    assemble caseFold a .nop = .ok ⟨.nop, 0x0000, none⟩ ∧
    assemble caseFold a .pointerValue = .ok ⟨.pointerValue, 0x4000, none⟩ ∧
    assemble caseFold a .endSession = .ok ⟨.endSession, 0x8000, none⟩ ∧
    (∀ (o : SymOperand) (n : Nat), asmIndex caseFold a o = .ok n → n < 64 ∧
      assemble caseFold a (.locate o) = .ok ⟨.locate n, 0x2000 ||| (BitVec.ofNat 16 n <<< 6), none⟩ ∧
      assemble caseFold a (.enc o) = .ok ⟨.enc n, 0x5000 ||| (BitVec.ofNat 16 n <<< 6), none⟩ ∧
      assemble caseFold a (.dec o) = .ok ⟨.dec n, 0x6000 ||| (BitVec.ofNat 16 n <<< 6), none⟩ ∧
      assemble caseFold a (.absorb o) = .ok ⟨.absorb n, 0x7000 ||| (BitVec.ofNat 16 n <<< 6), none⟩) ∧
    (∀ (o : SymOperand) (e : AsmError), asmIndex caseFold a o = .error e →
      assemble caseFold a (.locate o) = .error e ∧ assemble caseFold a (.enc o) = .error e ∧
      assemble caseFold a (.dec o) = .error e ∧ assemble caseFold a (.absorb o) = .error e) ∧
    (∀ row col : Nat, row < 8 → col < 8 → assemble caseFold a (.valueAt row col) =
      .ok ⟨.valueAt row col, 0x3000 ||| (BitVec.ofNat 16 row <<< 3) ||| BitVec.ofNat 16 col, none⟩) ∧
    (∀ row col : Nat, 8 ≤ row ∨ 8 ≤ col →
      assemble caseFold a (.valueAt row col) = .error .coordRange) ∧
    (∀ (entries : List SymOperand) (ns : List Nat),
      List.Forall₂ (fun o n => asmIndex caseFold a o = .ok n) entries ns →
      (ns.length = 36 → ∃ key : KeyWord,
        assemble caseFold a (.loadKey entries) = .ok ⟨.loadKey, 0x1000, some key⟩ ∧
        ∀ (k : Nat) (h : k < ns.length), (key.extractLsb' (6 * k) 6).toNat = ns[k]) ∧
      (ns.length ≠ 36 → assemble caseFold a (.loadKey entries) = .error .keyLength)) ∧
    (∀ (entries : List SymOperand) (o : SymOperand), o ∈ entries →
      (∀ n, asmIndex caseFold a o ≠ .ok n) → ∀ r, assemble caseFold a (.loadKey entries) ≠ .ok r) ∧
    (∀ (l : AsmLine) (r : Assembled), assemble caseFold a l = .ok r →
      r.word = encode r.instr ∧ decode r.word = .ok r.instr)

/-- R197, R271: DECRYPT_MSG is its command sequence: LOAD_KEY, one ABSORB per nonce and header symbol, one
DEC per ciphertext symbol, END_SESSION, run to the end from any state, with every response OK, for any
ciphertext that passes the host's checks; its output is the symbols of the DEC responses. -/
def Obligations.DecryptMessageIsItsCommands : Prop :=
  ∀ (p : HostParams) (s : State) (key ciphertext nonce header : List Char) (c : Checked),
    hostCheck p key nonce header ciphertext = .ok c →
    c.Spells p key nonce header ciphertext ∧
    decryptCommands c = [.loadKey] ++ c.nonce.map (fun v => .absorb v.val) ++
      c.header.map (fun v => .absorb v.val) ++ c.payload.map (fun v => .dec v.val) ++ [.endSession] ∧
    (decryptCommands c).length = 1 + nonce.length + header.length + ciphertext.length + 1 ∧
    ∃ (out : List Char) (t : State),
      decryptMsg p s key ciphertext nonce header = .ok (out, t) ∧
      out.length = ciphertext.length ∧ MessageRun c (decryptCommands c) s t out

/-- R199, P3, P4: what a snapshot shows after each command the recorder reads the port after:
`SNAPSHOT_Y_SEL` chooses between `SNAP_Y` and `SNAP_YR`, and `SNAPSHOT_ABSENT` which of the step's two
symbols are absent. -/
def Obligations.SnapshotShowsTheStep : Prop :=
  ∀ (q : RecorderParams) (s t : State) (n : Nat) (shown : Snapshot), t.lastCode = .ok →
    shown = snapshotOf q t.observe →
    (exec .loadKey s = .next t → t.S ≠ none ∧ shown = ⟨t.S, some 0, some 0, 0, 0, none, none⟩) ∧
    (exec (.enc n) s = .next t ∨ exec (.dec n) s = .next t ∨ exec (.absorb n) s = .next t →
      shown.S = t.S ∧ shown.I = t.I ∧ shown.J = t.J ∧ shown.r = t.snap.r ∧
      (q.ySel = .descriptor → shown.y = t.snap.y) ∧ (q.ySel = .rotated → shown.y = t.snap.yr)) ∧
    (exec (.enc n) s = .next t →
      shown.pt.map Fin.val = (if q.absentEnc.pt then none else some n) ∧
      shown.ct.map Fin.val = (if q.absentEnc.ct then none else some (respDsym t.resp).toNat)) ∧
    (exec (.dec n) s = .next t →
      shown.pt.map Fin.val = (if q.absentDec.pt then none else some (respDsym t.resp).toNat) ∧
      shown.ct.map Fin.val = (if q.absentDec.ct then none else some n)) ∧
    (exec (.absorb n) s = .next t →
      shown.pt.map Fin.val = (if q.absentAbsorb.pt then none else some n) ∧
      shown.ct.map Fin.val = (if q.absentAbsorb.ct then none else some t.snap.ct.val))
end

