-- ==== Sys2Proof/Laws/Decode.lean ====
section
/-! SUPPORT. The command word's fields and the encoder as arithmetic on the word's number. -/

namespace Sys2Proof

theorem opField_eq (w : Word) : opField w = w.toNat / 4096 := by
  have := w.isLt
  simp only [opField, BitVec.extractLsb'_toNat, Nat.shiftRight_eq_div_pow]; omega

theorem symField_eq (w : Word) : symField w = w.toNat / 64 % 64 := by
  simp only [symField, BitVec.extractLsb'_toNat, Nat.shiftRight_eq_div_pow]

theorem rowField_eq (w : Word) : rowField w = w.toNat / 8 % 8 := by
  simp only [rowField, BitVec.extractLsb'_toNat, Nat.shiftRight_eq_div_pow]

theorem colField_eq (w : Word) : colField w = w.toNat % 8 := by
  simp [colField, BitVec.extractLsb'_toNat]

theorem argField_eq (w : Word) : argField w = w.toNat % 4096 := by
  simp [argField, BitVec.extractLsb'_toNat]

theorem rowColField_eq (w : Word) : rowColField w = w.toNat % 64 := by
  simp [rowColField, BitVec.extractLsb'_toNat]

/-- The number of an instruction's word (R84's formulas, `|` of disjoint fields being `+`). -/
def encodeNat : Instr → Nat
  | .nop => 0
  | .loadKey => 0x1000
  | .locate s => 0x2000 + 64 * s
  | .valueAt row col => 0x3000 + 8 * row + col
  | .pointerValue => 0x4000
  | .enc s => 0x5000 + 64 * s
  | .dec s => 0x6000 + 64 * s
  | .absorb s => 0x7000 + 64 * s
  | .endSession => 0x8000

theorem or_symField : ∀ op : Fin 16, ∀ s : Fin 64,
    (BitVec.ofNat 16 (4096 * op.val) ||| (BitVec.ofNat 16 s.val <<< 6)).toNat
      = 4096 * op.val + 64 * s.val := by
  decide +kernel

theorem or_coordFields : ∀ row col : Fin 8,
    ((0x3000 : Word) ||| (BitVec.ofNat 16 row.val <<< 3) ||| BitVec.ofNat 16 col.val).toNat
      = 0x3000 + 8 * row.val + col.val := by
  decide +kernel

theorem encode_toNat {i : Instr} (h : i.wellFormed = true) : (encode i).toNat = encodeNat i := by
  cases i <;> simp only [Instr.wellFormed, symFits, coordFits, Bool.and_eq_true,
    decide_eq_true_eq] at h <;> simp only [encode, encodeNat]
  case locate s => simpa using or_symField 2 ⟨s, h⟩
  case enc s => simpa using or_symField 5 ⟨s, h⟩
  case dec s => simpa using or_symField 6 ⟨s, h⟩
  case absorb s => simpa using or_symField 7 ⟨s, h⟩
  case valueAt row col => exact or_coordFields ⟨row, h.1⟩ ⟨col, h.2⟩
  all_goals rfl

end Sys2Proof
end

