-- ==== Sys2Proof/Laws/State.lean ====
section
/-! SUPPORT. What each named write of the state leaves in each field. -/

namespace Sys2Proof.Machine

/-! ### `State.respond` -/

@[simp] theorem State.respond_S (s : State) (code : Code) (dv : Bool) (ds : BitVec 6) (dr dc : BitVec 3) :
    (s.respond code dv ds dr dc).S = s.S := rfl
@[simp] theorem State.respond_I (s : State) (code : Code) (dv : Bool) (ds : BitVec 6) (dr dc : BitVec 3) :
    (s.respond code dv ds dr dc).I = s.I := rfl
@[simp] theorem State.respond_J (s : State) (code : Code) (dv : Bool) (ds : BitVec 6) (dr dc : BitVec 3) :
    (s.respond code dv ds dr dc).J = s.J := rfl
@[simp] theorem State.respond_V (s : State) (code : Code) (dv : Bool) (ds : BitVec 6) (dr dc : BitVec 3) :
    (s.respond code dv ds dr dc).V = s.V := rfl
@[simp] theorem State.respond_lastCode (s : State) (code : Code) (dv : Bool) (ds : BitVec 6) (dr dc : BitVec 3) :
    (s.respond code dv ds dr dc).lastCode = code := rfl
@[simp] theorem State.respond_resp (s : State) (code : Code) (dv : Bool) (ds : BitVec 6) (dr dc : BitVec 3) :
    (s.respond code dv ds dr dc).resp = respWord code dv ds dr dc := rfl
@[simp] theorem State.respond_snap (s : State) (code : Code) (dv : Bool) (ds : BitVec 6) (dr dc : BitVec 3) :
    (s.respond code dv ds dr dc).snap = s.snap := rfl
@[simp] theorem State.respond_keyBus (s : State) (code : Code) (dv : Bool) (ds : BitVec 6) (dr dc : BitVec 3) :
    (s.respond code dv ds dr dc).keyBus = s.keyBus := rfl
@[simp] theorem State.respond_inputs (s : State) (code : Code) (dv : Bool) (ds : BitVec 6) (dr dc : BitVec 3) :
    (s.respond code dv ds dr dc).inputs = s.inputs := rfl

/-! ### `State.raise` -/

@[simp] theorem State.raise_S (s : State) (code : Code) :
    (s.raise code).S = s.S := rfl
@[simp] theorem State.raise_I (s : State) (code : Code) :
    (s.raise code).I = s.I := rfl
@[simp] theorem State.raise_J (s : State) (code : Code) :
    (s.raise code).J = s.J := rfl
@[simp] theorem State.raise_V (s : State) (code : Code) :
    (s.raise code).V = s.V := rfl
@[simp] theorem State.raise_lastCode (s : State) (code : Code) :
    (s.raise code).lastCode = code := rfl
@[simp] theorem State.raise_resp (s : State) (code : Code) :
    (s.raise code).resp = respWord code false 0 0 0 := rfl
@[simp] theorem State.raise_snap (s : State) (code : Code) :
    (s.raise code).snap = s.snap := rfl
@[simp] theorem State.raise_keyBus (s : State) (code : Code) :
    (s.raise code).keyBus = s.keyBus := rfl
@[simp] theorem State.raise_inputs (s : State) (code : Code) :
    (s.raise code).inputs = s.inputs := rfl

/-! ### `State.writeKeyed` -/

@[simp] theorem State.writeKeyed_S (s : State) (k : Keyed) :
    (s.writeKeyed k).S = some k.S := rfl
@[simp] theorem State.writeKeyed_I (s : State) (k : Keyed) :
    (s.writeKeyed k).I = some k.I := rfl
@[simp] theorem State.writeKeyed_J (s : State) (k : Keyed) :
    (s.writeKeyed k).J = some k.J := rfl
@[simp] theorem State.writeKeyed_V (s : State) (k : Keyed) :
    (s.writeKeyed k).V = s.V := rfl
@[simp] theorem State.writeKeyed_lastCode (s : State) (k : Keyed) :
    (s.writeKeyed k).lastCode = s.lastCode := rfl
@[simp] theorem State.writeKeyed_resp (s : State) (k : Keyed) :
    (s.writeKeyed k).resp = s.resp := rfl
@[simp] theorem State.writeKeyed_snap (s : State) (k : Keyed) :
    (s.writeKeyed k).snap = s.snap := rfl
@[simp] theorem State.writeKeyed_keyBus (s : State) (k : Keyed) :
    (s.writeKeyed k).keyBus = s.keyBus := rfl
@[simp] theorem State.writeKeyed_inputs (s : State) (k : Keyed) :
    (s.writeKeyed k).inputs = s.inputs := rfl

/-! ### `State.writeSnap` -/

@[simp] theorem State.writeSnap_S (s : State) (n : Snap) :
    (s.writeSnap n).S = s.S := rfl
@[simp] theorem State.writeSnap_I (s : State) (n : Snap) :
    (s.writeSnap n).I = s.I := rfl
@[simp] theorem State.writeSnap_J (s : State) (n : Snap) :
    (s.writeSnap n).J = s.J := rfl
@[simp] theorem State.writeSnap_V (s : State) (n : Snap) :
    (s.writeSnap n).V = s.V := rfl
@[simp] theorem State.writeSnap_lastCode (s : State) (n : Snap) :
    (s.writeSnap n).lastCode = s.lastCode := rfl
@[simp] theorem State.writeSnap_resp (s : State) (n : Snap) :
    (s.writeSnap n).resp = s.resp := rfl
@[simp] theorem State.writeSnap_snap (s : State) (n : Snap) :
    (s.writeSnap n).snap = n := rfl
@[simp] theorem State.writeSnap_keyBus (s : State) (n : Snap) :
    (s.writeSnap n).keyBus = s.keyBus := rfl
@[simp] theorem State.writeSnap_inputs (s : State) (n : Snap) :
    (s.writeSnap n).inputs = s.inputs := rfl

/-! ### `State.writeValid` -/

@[simp] theorem State.writeValid_S (s : State) (v : Bool) :
    (s.writeValid v).S = s.S := rfl
@[simp] theorem State.writeValid_I (s : State) (v : Bool) :
    (s.writeValid v).I = s.I := rfl
@[simp] theorem State.writeValid_J (s : State) (v : Bool) :
    (s.writeValid v).J = s.J := rfl
@[simp] theorem State.writeValid_V (s : State) (v : Bool) :
    (s.writeValid v).V = v := rfl
@[simp] theorem State.writeValid_lastCode (s : State) (v : Bool) :
    (s.writeValid v).lastCode = s.lastCode := rfl
@[simp] theorem State.writeValid_resp (s : State) (v : Bool) :
    (s.writeValid v).resp = s.resp := rfl
@[simp] theorem State.writeValid_snap (s : State) (v : Bool) :
    (s.writeValid v).snap = s.snap := rfl
@[simp] theorem State.writeValid_keyBus (s : State) (v : Bool) :
    (s.writeValid v).keyBus = s.keyBus := rfl
@[simp] theorem State.writeValid_inputs (s : State) (v : Bool) :
    (s.writeValid v).inputs = s.inputs := rfl

/-! ### `State.dropKeyed` -/

@[simp] theorem State.dropKeyed_S (s : State) :
    s.dropKeyed.S = none := rfl
@[simp] theorem State.dropKeyed_I (s : State) :
    s.dropKeyed.I = none := rfl
@[simp] theorem State.dropKeyed_J (s : State) :
    s.dropKeyed.J = none := rfl
@[simp] theorem State.dropKeyed_V (s : State) :
    s.dropKeyed.V = s.V := rfl
@[simp] theorem State.dropKeyed_lastCode (s : State) :
    s.dropKeyed.lastCode = s.lastCode := rfl
@[simp] theorem State.dropKeyed_resp (s : State) :
    s.dropKeyed.resp = s.resp := rfl
@[simp] theorem State.dropKeyed_snap (s : State) :
    s.dropKeyed.snap = s.snap := rfl
@[simp] theorem State.dropKeyed_keyBus (s : State) :
    s.dropKeyed.keyBus = s.keyBus := rfl
@[simp] theorem State.dropKeyed_inputs (s : State) :
    s.dropKeyed.inputs = s.inputs := rfl

/-! ### `State.present` -/

@[simp] theorem State.present_S (s : State) (cmd : Word) (key : KeyWord) :
    (s.present cmd key).S = s.S := rfl
@[simp] theorem State.present_I (s : State) (cmd : Word) (key : KeyWord) :
    (s.present cmd key).I = s.I := rfl
@[simp] theorem State.present_J (s : State) (cmd : Word) (key : KeyWord) :
    (s.present cmd key).J = s.J := rfl
@[simp] theorem State.present_V (s : State) (cmd : Word) (key : KeyWord) :
    (s.present cmd key).V = s.V := rfl
@[simp] theorem State.present_lastCode (s : State) (cmd : Word) (key : KeyWord) :
    (s.present cmd key).lastCode = s.lastCode := rfl
@[simp] theorem State.present_resp (s : State) (cmd : Word) (key : KeyWord) :
    (s.present cmd key).resp = s.resp := rfl
@[simp] theorem State.present_snap (s : State) (cmd : Word) (key : KeyWord) :
    (s.present cmd key).snap = s.snap := rfl
@[simp] theorem State.present_keyBus (s : State) (cmd : Word) (key : KeyWord) :
    (s.present cmd key).keyBus = s.keyBus := rfl
@[simp] theorem State.present_inputs (s : State) (cmd : Word) (key : KeyWord) :
    (s.present cmd key).inputs = .command cmd key :: s.inputs := rfl

/-! ### `State.accept` -/

@[simp] theorem State.accept_S (s : State) (key : KeyWord) (rest : List HostEvent) :
    (s.accept key rest).S = s.S := rfl
@[simp] theorem State.accept_I (s : State) (key : KeyWord) (rest : List HostEvent) :
    (s.accept key rest).I = s.I := rfl
@[simp] theorem State.accept_J (s : State) (key : KeyWord) (rest : List HostEvent) :
    (s.accept key rest).J = s.J := rfl
@[simp] theorem State.accept_V (s : State) (key : KeyWord) (rest : List HostEvent) :
    (s.accept key rest).V = s.V := rfl
@[simp] theorem State.accept_lastCode (s : State) (key : KeyWord) (rest : List HostEvent) :
    (s.accept key rest).lastCode = s.lastCode := rfl
@[simp] theorem State.accept_resp (s : State) (key : KeyWord) (rest : List HostEvent) :
    (s.accept key rest).resp = s.resp := rfl
@[simp] theorem State.accept_snap (s : State) (key : KeyWord) (rest : List HostEvent) :
    (s.accept key rest).snap = s.snap := rfl
@[simp] theorem State.accept_keyBus (s : State) (key : KeyWord) (rest : List HostEvent) :
    (s.accept key rest).keyBus = key := rfl
@[simp] theorem State.accept_inputs (s : State) (key : KeyWord) (rest : List HostEvent) :
    (s.accept key rest).inputs = rest := rfl

/-! ### `State.resetBlock` -/

@[simp] theorem State.resetBlock_S (s : State) :
    s.resetBlock.S = none := rfl
@[simp] theorem State.resetBlock_I (s : State) :
    s.resetBlock.I = none := rfl
@[simp] theorem State.resetBlock_J (s : State) :
    s.resetBlock.J = none := rfl
@[simp] theorem State.resetBlock_V (s : State) :
    s.resetBlock.V = false := rfl
@[simp] theorem State.resetBlock_lastCode (s : State) :
    s.resetBlock.lastCode = .ok := rfl
@[simp] theorem State.resetBlock_resp (s : State) :
    s.resetBlock.resp = 0x0000 := rfl
@[simp] theorem State.resetBlock_snap (s : State) :
    s.resetBlock.snap = Snap.cleared := rfl
@[simp] theorem State.resetBlock_keyBus (s : State) :
    s.resetBlock.keyBus = s.keyBus := rfl
@[simp] theorem State.resetBlock_inputs (s : State) :
    s.resetBlock.inputs = s.inputs := rfl

/-! ### `State.commitStep` -/

@[simp] theorem State.commitStep_S (s : State) (kind : SnapKind) (k : Keyed) (e : StepValues) :
    (s.commitStep kind k e).S = some (transition e.d k).S := rfl
@[simp] theorem State.commitStep_I (s : State) (kind : SnapKind) (k : Keyed) (e : StepValues) :
    (s.commitStep kind k e).I = some (transition e.d k).I := rfl
@[simp] theorem State.commitStep_J (s : State) (kind : SnapKind) (k : Keyed) (e : StepValues) :
    (s.commitStep kind k e).J = some (transition e.d k).J := rfl
@[simp] theorem State.commitStep_V (s : State) (kind : SnapKind) (k : Keyed) (e : StepValues) :
    (s.commitStep kind k e).V = s.V := rfl
@[simp] theorem State.commitStep_lastCode (s : State) (kind : SnapKind) (k : Keyed) (e : StepValues) :
    (s.commitStep kind k e).lastCode = s.lastCode := rfl
@[simp] theorem State.commitStep_resp (s : State) (kind : SnapKind) (k : Keyed) (e : StepValues) :
    (s.commitStep kind k e).resp = s.resp := rfl
@[simp] theorem State.commitStep_snap (s : State) (kind : SnapKind) (k : Keyed) (e : StepValues) :
    (s.commitStep kind k e).snap = ⟨kind, e.d.r, e.d.x, e.d.y, rotatedColumn e.d, e.pt, e.d.ct⟩ := rfl
@[simp] theorem State.commitStep_keyBus (s : State) (kind : SnapKind) (k : Keyed) (e : StepValues) :
    (s.commitStep kind k e).keyBus = s.keyBus := rfl
@[simp] theorem State.commitStep_inputs (s : State) (kind : SnapKind) (k : Keyed) (e : StepValues) :
    (s.commitStep kind k e).inputs = s.inputs := rfl

end Sys2Proof.Machine
end

