-- ==== Sys2Proof/Laws/Tableau.lean ====
section
/-! SUPPORT. The cell space: reads and writes, the pointer arithmetic as arithmetic mod 6, the motion of
the rotations, and what keeps a tableau well formed. -/

namespace Sys2Proof.Machine

/-! ### Cell numbers (R50) -/

@[simp] theorem cellRow_cellNo (r c : Coord) : cellRow (cellNo r c) = r := by
  ext; simp only [cellRow, cellNo]; omega

@[simp] theorem cellCol_cellNo (r c : Coord) : cellCol (cellNo r c) = c := by
  ext; simp only [cellCol, cellNo]; omega

@[simp] theorem cellNo_cellRow_cellCol (k : Fin 36) : cellNo (cellRow k) (cellCol k) = k := by
  ext; simp only [cellRow, cellCol, cellNo]; omega

theorem cellNo_inj {r c r' c' : Coord} : cellNo r c = cellNo r' c' ↔ r = r' ∧ c = c' := by
  constructor
  · intro h
    exact ⟨by simpa using congrArg cellRow h, by simpa using congrArg cellCol h⟩
  · rintro ⟨rfl, rfl⟩; rfl

/-! ### Reads and writes (R12, R52) -/

theorem memRead_memWrite_same (t : Tableau) (k : Fin 36) (v : Sym) :
    memRead (memWrite t k v) k = v := by
  simp [memRead, memWrite]

theorem memRead_memWrite_other (t : Tableau) {k k' : Fin 36} (v : Sym) (h : k' ≠ k) :
    memRead (memWrite t k v) k' = memRead t k' := by
  have h' : k.val ≠ k'.val := fun e => h (Fin.ext e.symm)
  simp [memRead, memWrite, Vector.getElem_set_ne, h']

theorem memRead_eq_valueAt (t : Tableau) (k : Fin 36) :
    memRead t k = valueAt t (cellRow k) (cellCol k) := by
  simp [valueAt]

@[simp] theorem valueAt_tableauOf (f : Coord → Coord → Sym) (r c : Coord) :
    valueAt (tableauOf f) r c = f r c := by
  have h : memRead (tableauOf f) (cellNo r c) = f (cellRow (cellNo r c)) (cellCol (cellNo r c)) := by
    simp only [memRead, tableauOf, Fin.getElem_fin, Vector.getElem_ofFn]
  simpa [valueAt] using h

/-- Two tableaus that read the same everywhere are equal. -/
theorem tableau_ext {t u : Tableau} (h : ∀ r c, valueAt t r c = valueAt u r c) : t = u := by
  apply Vector.ext
  intro i hi
  have := h (cellRow ⟨i, hi⟩) (cellCol ⟨i, hi⟩)
  simpa [valueAt, memRead] using this

/-! ### The pointer controller's arithmetic is arithmetic mod 6 (R151, R152, R154) -/

@[simp] theorem inc6_eq (a : Coord) : inc6 a = a + 1 := by revert a; decide

@[simp] theorem add6_eq (a b : Coord) : add6 a b = a + b := by revert a b; decide

@[simp] theorem sub6_eq (a b : Coord) : sub6 a b = a - b := by revert a b; decide

theorem coord_add_five (a : Coord) : a + 5 = a - 1 := by revert a; decide

theorem rowOffset_colOffset (v : Sym) : 6 * (rowOffset v).val + (colOffset v).val = v.val := by
  simp only [rowOffset, colOffset]; omega

/-! ### Rotations (R54, R55) -/

theorem valueAt_rotRowRight (r : Coord) (t : Tableau) (a c : Coord) :
    valueAt (rotRowRight r t) a c = if a = r then valueAt t a (c - 1) else valueAt t a c := by
  simp [rotRowRight, coord_add_five]

theorem valueAt_rotColDown (y : Coord) (t : Tableau) (a c : Coord) :
    valueAt (rotColDown y t) a c = if c = y then valueAt t (a - 1) c else valueAt t a c := by
  simp [rotColDown, coord_add_five]

/-! ### Well-formedness (R23) -/

theorem memory_wf_iff (t : Tableau) :
    Memory.wf t = true ↔ ∀ k k', memRead t k = memRead t k' → k = k' := by
  simp only [Memory.wf, decide_eq_true_eq, List.nodup_iff_injective_get, memRead]
  constructor
  · intro h k k' e
    have := @h ⟨k.val, by simp⟩ ⟨k'.val, by simp⟩ (by simpa using e)
    exact Fin.ext (by simpa using this)
  · intro h a b e
    have ha : a.val < 36 := by simpa using a.isLt
    have hb : b.val < 36 := by simpa using b.isLt
    have := h ⟨a.val, ha⟩ ⟨b.val, hb⟩ (by simpa using e)
    exact Fin.ext (by simpa using this)

/-- In a well-formed tableau a value tells its place. -/
theorem memory_wf_iff_valueAt (t : Tableau) :
    Memory.wf t = true ↔ ∀ r c r' c', valueAt t r c = valueAt t r' c' → r = r' ∧ c = c' := by
  rw [memory_wf_iff]
  constructor
  · intro h r c r' c' e
    exact cellNo_inj.1 (h _ _ e)
  · intro h k k' e
    rw [memRead_eq_valueAt, memRead_eq_valueAt] at e
    have := h _ _ _ _ e
    rw [← cellNo_cellRow_cellCol k, ← cellNo_cellRow_cellCol k', this.1, this.2]

/-- A well-formed tableau holds every value (R23, R53). -/
theorem memory_wf_holds_every_value {t : Tableau} (h : Memory.wf t = true) (v : Sym) :
    ∃ r c, valueAt t r c = v := by
  obtain ⟨k, hk⟩ := Finite.injective_iff_surjective.1
    (fun a b e => (memory_wf_iff t).1 h a b e) v
  exact ⟨cellRow k, cellCol k, by rw [← memRead_eq_valueAt]; exact hk⟩

/-- A tableau filled by an injective function of the place is well formed. -/
theorem memory_wf_tableauOf {f : Coord → Coord → Sym}
    (h : ∀ r c r' c', f r c = f r' c' → r = r' ∧ c = c') : Memory.wf (tableauOf f) = true := by
  rw [memory_wf_iff_valueAt]
  simpa using h

theorem rotRowRight_keeps_wf (r : Coord) {t : Tableau} (h : Memory.wf t = true) :
    Memory.wf (rotRowRight r t) = true := by
  rw [memory_wf_iff_valueAt] at h ⊢
  intro a c a' c' e
  simp only [valueAt_rotRowRight] at e
  split at e <;> split at e <;> obtain ⟨ha, hc⟩ := h _ _ _ _ e
  · exact ⟨ha, by simpa using hc⟩
  · exact absurd (ha.symm.trans ‹a = r›) ‹_›
  · exact absurd (ha.trans ‹a' = r›) ‹_›
  · exact ⟨ha, hc⟩

theorem rotColDown_keeps_wf (y : Coord) {t : Tableau} (h : Memory.wf t = true) :
    Memory.wf (rotColDown y t) = true := by
  rw [memory_wf_iff_valueAt] at h ⊢
  intro a c a' c' e
  simp only [valueAt_rotColDown] at e
  split at e <;> split at e <;> obtain ⟨ha, hc⟩ := h _ _ _ _ e
  · exact ⟨by simpa using ha, hc⟩
  · exact absurd (hc.symm.trans ‹c = y›) ‹_›
  · exact absurd (hc.trans ‹c' = y›) ‹_›
  · exact ⟨ha, hc⟩

/-! ### Locate (R53) -/

/-- Everything `locate` can do: it finds a cell that holds the value, or none holds it. -/
theorem locate_cases (t : Tableau) (v : Sym) :
    (∃ r c, locate t v = .ok (r, c) ∧ valueAt t r c = v) ∨
    (locate t v = .error (.fault .locateMiss) ∧ ∀ r c, valueAt t r c ≠ v) := by
  unfold locate findCell
  cases h : (List.finRange 36).find? fun k => memRead t k == v with
  | some k =>
    have hk := List.find?_some h
    rw [beq_iff_eq, memRead_eq_valueAt] at hk
    exact .inl ⟨_, _, rfl, hk⟩
  | none =>
    rw [List.find?_eq_none] at h
    refine .inr ⟨rfl, fun r c e => ?_⟩
    exact h (cellNo r c) (List.mem_finRange _) (by rw [beq_iff_eq]; exact e)

/-- In a well-formed tableau, `locate` answers the place of the value (R53). -/
theorem locate_valueAt {t : Tableau} (h : Memory.wf t = true) (r c : Coord) :
    locate t (valueAt t r c) = .ok (r, c) := by
  obtain ⟨r', c', he, hv⟩ | ⟨_, hn⟩ := locate_cases t (valueAt t r c)
  · obtain ⟨rfl, rfl⟩ := (memory_wf_iff_valueAt t).1 h _ _ _ _ hv
    exact he
  · exact absurd rfl (hn r c)

/-! ### TRANSITION's column (R142) -/

theorem rotatedColumn_eq (d : Descriptor) :
    rotatedColumn d = if d.x = d.r then d.y + 1 else d.y := by
  simp [rotatedColumn]

end Sys2Proof.Machine
end

