-- ==== Sys2Proof/Laws/Ops.lean ====
section
/-! SUPPORT. For each shared operation, everything it can do, said once. -/

namespace Sys2Proof.Machine

/-! ### How a command ends (R13) -/

@[simp] theorem finish_ok (s t : State) : finish s (.ok t) = .next t := rfl

@[simp] theorem finish_raise (s : State) (c : Code) :
    finish s (.error (.raise c)) = .next (s.raise c) := rfl

@[simp] theorem finish_fault (s : State) (f : Fault) :
    finish s (.error (.fault f)) = .fault f := rfl

/-- A command answers a next state in two ways: it computed one, or it raised. -/
theorem finish_next_iff (s t : State) (m : Except Stop State) :
    finish s m = .next t ↔ m = .ok t ∨ ∃ c, m = .error (.raise c) ∧ t = s.raise c := by
  match m with
  | .ok u => simp
  | .error (.raise c) => simp [eq_comm]
  | .error (.fault f) => simp

@[simp] theorem stop_bind_ok {α β : Type} (a : α) (f : α → Except Stop β) :
    ((.ok a : Except Stop α) >>= f) = f a := rfl

@[simp] theorem stop_bind_error {α β : Type} (e : Stop) (f : α → Except Stop β) :
    ((.error e : Except Stop α) >>= f) = .error e := rfl

@[simp] theorem stop_pure {α : Type} (a : α) : (pure a : Except Stop α) = .ok a := rfl

/-! ### Checks and reads (R14, R222, R223, R225) -/

theorem needKeyed_of_valid {s : State} (h : s.V = true) : needKeyed s = .ok () := by
  simp [needKeyed, h]

theorem needKeyed_of_not_valid {s : State} (h : s.V = false) :
    needKeyed s = .error (.raise .notKeyed) := by
  simp [needKeyed, h]

@[simp] theorem readElem_some {α : Type} (a : α) : readElem (some a) = .ok a := rfl

@[simp] theorem readElem_none {α : Type} :
    readElem (none : Option α) = .error (.fault .bottomRead) := rfl

/-- `S`, `I` and `J` all have a value, or the read is a fault. -/
theorem readKeyed_cases (s : State) :
    (∃ k : Keyed, s.S = some k.S ∧ s.I = some k.I ∧ s.J = some k.J ∧ readKeyed s = .ok k) ∨
    ((s.S = none ∨ s.I = none ∨ s.J = none) ∧ readKeyed s = .error (.fault .bottomRead)) := by
  unfold readKeyed
  cases hS : s.S <;> cases hI : s.I <;> cases hJ : s.J <;> simp

theorem readKeyed_eq {s : State} {t : Tableau} {i j : Coord} (hS : s.S = some t)
    (hI : s.I = some i) (hJ : s.J = some j) : readKeyed s = .ok ⟨t, i, j⟩ := by
  simp [readKeyed, hS, hI, hJ]

@[simp] theorem symOperand_val (v : Sym) : symOperand v.val = .ok v := by
  simp [symOperand]

theorem symOperand_of_le {n : Nat} (h : n ≤ 35) : symOperand n = .ok ⟨n, by omega⟩ := by
  simp [symOperand, show n < 36 by omega]

theorem symOperand_of_gt {n : Nat} (h : 35 < n) : symOperand n = .error (.raise .invalidSymbol) := by
  simp [symOperand, show ¬ n < 36 by omega]

theorem coordOperands_of_le {row col : Nat} (hr : row ≤ 5) (hc : col ≤ 5) :
    coordOperands row col = .ok (⟨row, by omega⟩, ⟨col, by omega⟩) := by
  simp [coordOperands, show row < 6 by omega, show col < 6 by omega]

theorem coordOperands_of_gt {row col : Nat} (h : 5 < row ∨ 5 < col) :
    coordOperands row col = .error (.raise .badCoord) := by
  simp only [coordOperands, dif_neg (show ¬ (row < 6 ∧ col < 6) by omega)]

/-! ### The key operand (R111) -/

/-- Two entries of the key are equal exactly when the duplicate check says so. -/
theorem keyHasDuplicate_eq_false_iff (key : KeyWord) :
    keyHasDuplicate key = false ↔
      ∀ k k', k < 36 → k' < 36 → keyEntry key k = keyEntry key k' → k = k' := by
  simp only [keyHasDuplicate, Bool.not_eq_false', decide_eq_true_eq]
  rw [List.nodup_map_iff_inj_on List.nodup_range]
  simp only [List.mem_range]
  exact ⟨fun h k k' hk hk' e => h k hk k' hk' e, fun h k hk k' hk' e => h k k' hk hk' e⟩

/-- Everything LOAD_KEY's operand can be: an entry above 35, or else a duplicate, or else the row-major
tableau of the entries. -/
theorem keyOperand_cases (key : KeyWord) :
    ((∃ k, k < 36 ∧ 35 < keyEntry key k) ∧ keyOperand key = .error (.raise .invalidSymbol)) ∨
    ((∀ k, k < 36 → keyEntry key k ≤ 35) ∧ keyHasDuplicate key = true ∧
      keyOperand key = .error (.raise .invalidKey)) ∨
    ((∀ k, k < 36 → keyEntry key k ≤ 35) ∧ keyHasDuplicate key = false ∧
      ∃ t, keyOperand key = .ok t ∧ Memory.wf t = true ∧
        ∀ r c, (valueAt t r c).val = keyEntry key (cellNo r c).val) := by
  unfold keyOperand
  by_cases h : ∀ k : Fin 36, keyEntry key k.val < 36
  · have h' : ∀ k, k < 36 → keyEntry key k ≤ 35 := fun k hk => by have := h ⟨k, hk⟩; simp at this; omega
    rw [dif_pos h]
    cases hd : keyHasDuplicate key
    · refine .inr (.inr ⟨h', rfl, _, rfl, ?_, fun r c => by rw [valueAt_tableauOf]⟩)
      refine memory_wf_tableauOf fun r c r' c' e => cellNo_inj.1 (Fin.ext ?_)
      exact (keyHasDuplicate_eq_false_iff key).1 hd _ _ (cellNo r c).isLt (cellNo r' c').isLt
        (by simpa using e)
    · exact .inr (.inl ⟨h', rfl, rfl⟩)
  · rw [dif_neg h]
    obtain ⟨k, hk⟩ := not_forall.1 h
    exact .inl ⟨⟨k.val, k.isLt, by omega⟩, rfl⟩

/-! ### The ports (R80) -/

theorem fetch_nil {s : State} (h : s.inputs = []) : fetch s = .idle := by
  simp [fetch, h]

theorem fetch_rst {s : State} {rest : List HostEvent} (h : s.inputs = .rst :: rest) :
    fetch s = .rst { s with inputs := rest } := by
  simp [fetch, h]

theorem fetch_command {s : State} {cmd : Word} {key : KeyWord} {rest : List HostEvent}
    (h : s.inputs = .command cmd key :: rest) : fetch s = .command cmd (s.accept key rest) := by
  simp [fetch, h]

@[simp] theorem fetch_present (s : State) (cmd : Word) (key : KeyWord) :
    fetch (s.present cmd key) = .command cmd { s with keyBus := key } := rfl

/-! ### The step values (R161, R171) -/

/-- The encrypt step finds the plaintext's cell and shifts it by the pointer value, or misses it. -/
theorem encryptStep_cases (k : Keyed) (pt : Sym) :
    (∃ r c, valueAt k.S r c = pt ∧ encryptStep k pt =
      .ok ⟨⟨r, r + rowOffset (pointerValue k), c + colOffset (pointerValue k),
        valueAt k.S (r + rowOffset (pointerValue k)) (c + colOffset (pointerValue k))⟩, pt⟩) ∨
    (encryptStep k pt = .error (.fault .locateMiss) ∧ ∀ r c, valueAt k.S r c ≠ pt) := by
  obtain ⟨r, c, he, hv⟩ | ⟨he, hn⟩ := locate_cases k.S pt
  · exact .inl ⟨r, c, hv, by simp [encryptStep, he]⟩
  · exact .inr ⟨by simp [encryptStep, he], hn⟩

theorem encryptStep_valueAt {k : Keyed} (h : Memory.wf k.S = true) (r c : Coord) :
    encryptStep k (valueAt k.S r c) =
      .ok ⟨⟨r, r + rowOffset (pointerValue k), c + colOffset (pointerValue k),
        valueAt k.S (r + rowOffset (pointerValue k)) (c + colOffset (pointerValue k))⟩,
        valueAt k.S r c⟩ := by
  simp [encryptStep, locate_valueAt h]

/-- The decrypt step finds the ciphertext's cell and shifts it back, or misses it. -/
theorem decryptStep_cases (k : Keyed) (ct : Sym) :
    (∃ x y, valueAt k.S x y = ct ∧ decryptStep k ct =
      .ok ⟨⟨x - rowOffset (pointerValue k), x, y, ct⟩,
        valueAt k.S (x - rowOffset (pointerValue k)) (y - colOffset (pointerValue k))⟩) ∨
    (decryptStep k ct = .error (.fault .locateMiss) ∧ ∀ x y, valueAt k.S x y ≠ ct) := by
  obtain ⟨x, y, he, hv⟩ | ⟨he, hn⟩ := locate_cases k.S ct
  · exact .inl ⟨x, y, hv, by simp [decryptStep, he]⟩
  · exact .inr ⟨by simp [decryptStep, he], hn⟩

theorem decryptStep_valueAt {k : Keyed} (h : Memory.wf k.S = true) (x y : Coord) :
    decryptStep k (valueAt k.S x y) =
      .ok ⟨⟨x - rowOffset (pointerValue k), x, y, valueAt k.S x y⟩,
        valueAt k.S (x - rowOffset (pointerValue k)) (y - colOffset (pointerValue k))⟩ := by
  simp [decryptStep, locate_valueAt h]

end Sys2Proof.Machine
end

