-- ==== Sys2Proof/Laws/Exec.lean ====
section
/-! SUPPORT. Everything a command can do, said once: `CommandOutcome` lists the ways, `exec_outcome` says
that they are all. -/

namespace Sys2Proof.Machine

/-- The ways a command ends: the raises with their causes (R221 to R225), the faults with what the state
must lack, and the successes with the state each leaves. -/
inductive CommandOutcome (i : Instr) (s : State) : Host.Outcome State Fault Refusal → Prop
  | notKeyed (hi : needsTableau i = true) (hV : s.V = false) :
      CommandOutcome i s (.next (s.raise .notKeyed))
  | badSymbol (n : Nat) (hV : s.V = true) (hi : symbolOf i = some n) (hn : 35 < n) :
      CommandOutcome i s (.next (s.raise .invalidSymbol))
  | badCoord (row col : Nat) (hV : s.V = true) (hi : i = .valueAt row col) (h : 5 < row ∨ 5 < col) :
      CommandOutcome i s (.next (s.raise .badCoord))
  | badEntry (hi : i = .loadKey) (h : ∃ k, k < 36 ∧ 35 < keyEntry s.keyBus k) :
      CommandOutcome i s (.next (s.raise .invalidSymbol))
  | badKey (hi : i = .loadKey) (h : ∀ k, k < 36 → keyEntry s.keyBus k ≤ 35)
      (hd : keyHasDuplicate s.keyBus = true) : CommandOutcome i s (.next (s.raise .invalidKey))
  | bottomRead (hV : s.V = true) (h : s.S = none ∨ s.I = none ∨ s.J = none) :
      CommandOutcome i s (.fault .bottomRead)
  | locateMiss (t : Tableau) (v : Sym) (hV : s.V = true) (hS : s.S = some t)
      (h : ∀ r c, valueAt t r c ≠ v) : CommandOutcome i s (.fault .locateMiss)
  | nop (hi : i = .nop) : CommandOutcome i s (.next (s.respond .ok false 0 0 0))
  | endSession (hi : i = .endSession) :
      CommandOutcome i s
        (.next (((s.dropKeyed.writeValid false).writeSnap Snap.cleared).respond .ok false 0 0 0))
  | loadKey (t : Tableau) (hi : i = .loadKey) (ht : keyOperand s.keyBus = .ok t)
      (hw : Memory.wf t = true) :
      CommandOutcome i s
        (.next ((((s.writeKeyed ⟨t, 0, 0⟩).writeValid true).writeSnap Snap.cleared).respond
          .ok false 0 0 0))
  | locate (n : Nat) (t : Tableau) (r c : Coord) (hi : i = .locate n) (hV : s.V = true)
      (hS : s.S = some t) (h : (valueAt t r c).val = n) :
      CommandOutcome i s (.next (s.respond .ok true 0 (coordBits r) (coordBits c)))
  | valueAt (r c : Coord) (t : Tableau) (hi : i = .valueAt r.val c.val) (hV : s.V = true)
      (hS : s.S = some t) :
      CommandOutcome i s (.next (s.respond .ok true (symBits (valueAt t r c)) 0 0))
  | pointerValue (k : Keyed) (hi : i = .pointerValue) (hV : s.V = true) (hk : readKeyed s = .ok k) :
      CommandOutcome i s
        (.next (s.respond .ok true (symBits (pointerValue k)) (coordBits k.I) (coordBits k.J)))
  | enc (pt : Sym) (k : Keyed) (e : StepValues) (hi : i = .enc pt.val) (hV : s.V = true)
      (hk : readKeyed s = .ok k) (he : encryptStep k pt = .ok e) :
      CommandOutcome i s (.next ((s.commitStep .enc k e).respond .ok true (symBits e.d.ct) 0 0))
  | dec (ct : Sym) (k : Keyed) (e : StepValues) (hi : i = .dec ct.val) (hV : s.V = true)
      (hk : readKeyed s = .ok k) (he : decryptStep k ct = .ok e) :
      CommandOutcome i s (.next ((s.commitStep .dec k e).respond .ok true (symBits e.pt) 0 0))
  | absorb (pt : Sym) (k : Keyed) (e : StepValues) (hi : i = .absorb pt.val) (hV : s.V = true)
      (hk : readKeyed s = .ok k) (he : encryptStep k pt = .ok e) :
      CommandOutcome i s (.next ((s.commitStep .absorb k e).respond .ok false 0 0 0))

/-- A symbol operand is an index, or its check raises. -/
theorem symOperand_cases (n : Nat) :
    (∃ v : Sym, v.val = n ∧ symOperand n = .ok v) ∨
    (35 < n ∧ symOperand n = .error (.raise .invalidSymbol)) := by
  by_cases h : n ≤ 35
  · exact .inl ⟨_, rfl, symOperand_of_le h⟩
  · exact .inr ⟨by omega, symOperand_of_gt (by omega)⟩

theorem execLoadKey_outcome (s : State) : CommandOutcome .loadKey s (execLoadKey s) := by
  unfold execLoadKey
  obtain ⟨h, hk⟩ | ⟨h, hd, hk⟩ | ⟨_, _, t, hk, hw, _⟩ := keyOperand_cases s.keyBus <;>
    simp only [hk, stop_bind_ok, stop_bind_error, stop_pure, finish_ok, finish_raise]
  · exact .badEntry rfl h
  · exact .badKey rfl h hd
  · exact .loadKey t rfl hk hw

theorem execLocate_outcome (n : Nat) (s : State) : CommandOutcome (.locate n) s (execLocate n s) := by
  unfold execLocate
  cases hV : s.V
  · rw [needKeyed_of_not_valid hV]; exact .notKeyed rfl hV
  rw [needKeyed_of_valid hV, stop_bind_ok]
  obtain ⟨v, rfl, h⟩ | ⟨hn, h⟩ := symOperand_cases n <;> rw [h]
  · cases hS : s.S with
    | none => exact .bottomRead hV (.inl hS)
    | some t =>
      obtain ⟨r, c, he, hv⟩ | ⟨he, hm⟩ := locate_cases t v <;>
        simp only [readElem_some, he, stop_bind_ok, stop_bind_error, stop_pure, finish_ok, finish_fault]
      · exact .locate _ t r c rfl hV hS (by rw [hv])
      · exact .locateMiss t v hV hS hm
  · exact .badSymbol n hV rfl hn

theorem execValueAt_outcome (row col : Nat) (s : State) :
    CommandOutcome (.valueAt row col) s (execValueAt row col s) := by
  unfold execValueAt
  cases hV : s.V
  · rw [needKeyed_of_not_valid hV]; exact .notKeyed rfl hV
  rw [needKeyed_of_valid hV, stop_bind_ok]
  by_cases h : row ≤ 5 ∧ col ≤ 5
  · rw [coordOperands_of_le h.1 h.2]
    cases hS : s.S with
    | none => exact .bottomRead hV (.inl hS)
    | some t => exact .valueAt ⟨row, by omega⟩ ⟨col, by omega⟩ t rfl hV hS
  · rw [coordOperands_of_gt (by omega)]
    exact .badCoord row col hV rfl (by omega)

theorem execPointerValue_outcome (s : State) :
    CommandOutcome .pointerValue s (execPointerValue s) := by
  unfold execPointerValue
  cases hV : s.V
  · rw [needKeyed_of_not_valid hV]; exact .notKeyed rfl hV
  rw [needKeyed_of_valid hV, stop_bind_ok]
  obtain ⟨k, _, _, _, hk⟩ | ⟨hn, hk⟩ := readKeyed_cases s <;>
    simp only [hk, stop_bind_ok, stop_bind_error, stop_pure, finish_ok, finish_fault]
  · exact .pointerValue k rfl hV hk
  · exact .bottomRead hV hn

theorem execEnc_outcome (n : Nat) (s : State) : CommandOutcome (.enc n) s (execEnc n s) := by
  unfold execEnc
  cases hV : s.V
  · rw [needKeyed_of_not_valid hV]; exact .notKeyed rfl hV
  rw [needKeyed_of_valid hV, stop_bind_ok]
  obtain ⟨v, rfl, h⟩ | ⟨hn, h⟩ := symOperand_cases n <;> rw [h]
  · obtain ⟨k, hS, _, _, hk⟩ | ⟨hb, hk⟩ := readKeyed_cases s
    · obtain ⟨r, c, _, he⟩ | ⟨he, hm⟩ := encryptStep_cases k v <;>
        simp only [hk, he, stop_bind_ok, stop_bind_error, stop_pure, finish_ok, finish_fault]
      · exact .enc v k _ rfl hV hk he
      · exact .locateMiss k.S v hV hS hm
    · simp only [hk, stop_bind_ok, stop_bind_error, finish_fault]
      exact .bottomRead hV hb
  · exact .badSymbol n hV rfl hn

theorem execDec_outcome (n : Nat) (s : State) : CommandOutcome (.dec n) s (execDec n s) := by
  unfold execDec
  cases hV : s.V
  · rw [needKeyed_of_not_valid hV]; exact .notKeyed rfl hV
  rw [needKeyed_of_valid hV, stop_bind_ok]
  obtain ⟨v, rfl, h⟩ | ⟨hn, h⟩ := symOperand_cases n <;> rw [h]
  · obtain ⟨k, hS, _, _, hk⟩ | ⟨hb, hk⟩ := readKeyed_cases s
    · obtain ⟨x, y, _, he⟩ | ⟨he, hm⟩ := decryptStep_cases k v <;>
        simp only [hk, he, stop_bind_ok, stop_bind_error, stop_pure, finish_ok, finish_fault]
      · exact .dec v k _ rfl hV hk he
      · exact .locateMiss k.S v hV hS hm
    · simp only [hk, stop_bind_ok, stop_bind_error, finish_fault]
      exact .bottomRead hV hb
  · exact .badSymbol n hV rfl hn

theorem execAbsorb_outcome (n : Nat) (s : State) : CommandOutcome (.absorb n) s (execAbsorb n s) := by
  unfold execAbsorb
  cases hV : s.V
  · rw [needKeyed_of_not_valid hV]; exact .notKeyed rfl hV
  rw [needKeyed_of_valid hV, stop_bind_ok]
  obtain ⟨v, rfl, h⟩ | ⟨hn, h⟩ := symOperand_cases n <;> rw [h]
  · obtain ⟨k, hS, _, _, hk⟩ | ⟨hb, hk⟩ := readKeyed_cases s
    · obtain ⟨r, c, _, he⟩ | ⟨he, hm⟩ := encryptStep_cases k v <;>
        simp only [hk, he, stop_bind_ok, stop_bind_error, stop_pure, finish_ok, finish_fault]
      · exact .absorb v k _ rfl hV hk he
      · exact .locateMiss k.S v hV hS hm
    · simp only [hk, stop_bind_ok, stop_bind_error, finish_fault]
      exact .bottomRead hV hb
  · exact .badSymbol n hV rfl hn

/-- Every command ends in one of the ways of `CommandOutcome`, from every state. -/
theorem exec_outcome (i : Instr) (s : State) : CommandOutcome i s (exec i s) := by
  cases i with
  | nop => exact .nop rfl
  | loadKey => exact execLoadKey_outcome s
  | locate n => exact execLocate_outcome n s
  | valueAt row col => exact execValueAt_outcome row col s
  | pointerValue => exact execPointerValue_outcome s
  | enc n => exact execEnc_outcome n s
  | dec n => exact execDec_outcome n s
  | absorb n => exact execAbsorb_outcome n s
  | endSession => exact .endSession rfl

end Sys2Proof.Machine
end

