-- ==== Sys2Proof/Laws/Host.lean ====
section
/-! SUPPORT. The host's alphabet and its checks, and how command sequences run: what each operation can
answer, said once. -/

namespace Sys2Proof.Machine

/-! ### The alphabet (R200) -/

theorem buildAlphabet_eq_ok {symbols : List Char} {a : Alphabet} (h : buildAlphabet symbols = .ok a) :
    a.toList = symbols ∧ symbols.length = 36 ∧ symbols.Nodup := by
  unfold buildAlphabet at h
  split at h
  · split at h <;> cases h
    exact ⟨by simp [Vector.toList], ‹_›, ‹_›⟩
  · cases h

theorem buildAlphabet_of {symbols : List Char} (h : symbols.length = 36) (hn : symbols.Nodup) :
    ∃ a, buildAlphabet symbols = .ok a ∧ a.toList = symbols :=
  ⟨⟨symbols.toArray, by simpa using h⟩, by simp [buildAlphabet, h, hn], by simp [Vector.toList]⟩

/-- Distinct symbols have distinct places. -/
theorem toSymbol_injective {a : Alphabet} (hn : a.toList.Nodup) : Function.Injective (toSymbol a) := by
  intro u v e
  have := (List.nodup_iff_injective_get.1 hn) (a₁ := ⟨u.val, by simp⟩) (a₂ := ⟨v.val, by simp⟩)
    (by simpa [toSymbol] using e)
  exact Fin.ext (by simpa using this)

theorem toSymbol_mem (a : Alphabet) (v : Sym) : toSymbol a v ∈ a.toList := by simp [toSymbol]

/-- A symbol has the index of its place, or the character is outside the alphabet. -/
theorem toIndex_cases (caseFold : Bool) (a : Alphabet) (ch : Char) :
    (∃ v, toIndex caseFold a ch = .ok v ∧ toSymbol a v = foldCase caseFold ch) ∨
    (toIndex caseFold a ch = .error .invalidSymbol ∧ foldCase caseFold ch ∉ a.toList) := by
  unfold toIndex
  cases hf : (List.finRange 36).find? fun v => toSymbol a v == foldCase caseFold ch with
  | some v => exact .inl ⟨v, rfl, by simpa using List.find?_some hf⟩
  | none =>
    refine .inr ⟨rfl, fun hm => ?_⟩
    obtain ⟨n, hn, e⟩ := List.mem_iff_getElem.1 hm
    have := List.find?_eq_none.1 hf ⟨n, by simpa using hn⟩ (List.mem_finRange _)
    simp only [Vector.length_toList] at hn
    exact this (by simp [toSymbol, ← e])

/-- The indices of a string, symbol by symbol, or one of its characters is outside the alphabet. -/
theorem toIndices_cases (caseFold : Bool) (a : Alphabet) (chs : List Char) :
    (∃ vs, toIndices caseFold a chs = .ok vs ∧ vs.map (toSymbol a) = chs.map (foldCase caseFold)) ∨
    (toIndices caseFold a chs = .error .invalidSymbol ∧
      ∃ ch ∈ chs, foldCase caseFold ch ∉ a.toList) := by
  induction chs with
  | nil => exact .inl ⟨[], rfl, rfl⟩
  | cons ch chs ih =>
    obtain ⟨v, hv, e⟩ | ⟨hv, hm⟩ := toIndex_cases caseFold a ch
    · obtain ⟨vs, hvs, e'⟩ | ⟨hvs, d, hd, hm⟩ := ih
      · exact .inl ⟨v :: vs, by simp only [toIndices, hv, hvs, bind, Except.bind]; rfl, by simp [e, e']⟩
      · exact .inr ⟨by simp only [toIndices, hv, hvs, bind, Except.bind], d, by simp [hd], hm⟩
    · exact .inr ⟨by simp only [toIndices, hv, bind, Except.bind], ch, by simp, hm⟩

/-- What a message that passed its checks has (R200 to R202). -/
theorem hostCheck_eq_ok {p : HostParams} {key nonce header payload : List Char} {c : Checked}
    (h : hostCheck p key nonce header payload = .ok c) :
    buildAlphabet p.symbols = .ok c.alphabet ∧ keyIndices p.caseFold c.alphabet key = .ok c.key ∧
    c.key.length = 36 ∧ c.key.Nodup ∧ toIndices p.caseFold c.alphabet nonce = .ok c.nonce ∧
    toIndices p.caseFold c.alphabet header = .ok c.header ∧
    toIndices p.caseFold c.alphabet payload = .ok c.payload := by
  simp only [hostCheck, bind, Except.bind] at h
  split at h <;> [cases h; skip]
  rename_i ha
  split at h <;> [cases h; skip]
  rename_i hk
  split at h <;> [cases h; skip]
  rename_i h1
  split at h <;> [cases h; skip]
  rename_i h2
  split at h <;> [cases h; skip]
  rename_i h3
  cases h
  refine ⟨ha, hk, ?_, ?_, h1, h2, h3⟩ <;>
    (simp only [keyIndices, bind, Except.bind] at hk
     split at hk <;> [cases hk; skip]
     split at hk <;> [cases hk; skip]
     split at hk <;> cases hk)
  · rename_i hl _
    simpa using hl
  · assumption

/-! ### Command sequences (R80, R205) -/

/-- A transaction whose command answers a next state with an OK response. -/
theorem transact_eq {i : Instr} {key : KeyWord} {s t : State} (hd : decode (encode i) = .ok i)
    (h : exec i { s with keyBus := key } = .next t) (hr : respCode t.resp = 0) :
    transact key i s = .ok t := by
  have hs : step (s.present (encode i) key) = .next t := by
    simp only [step, State.present, fetch, State.accept, hd, ← h]
  simp only [transact, hs, hr, if_true]

theorem runCommands_cons {key : KeyWord} {i : Instr} {is : List Instr} {s t u : State}
    {rs : List Word} (h : transact key i s = .ok t) (h' : runCommands key is t = .ok (rs, u)) :
    runCommands key (i :: is) s = .ok (t.resp :: rs, u) := by
  simp only [runCommands, h, h', bind, Except.bind]; rfl

theorem runCommands_append {key : KeyWord} {is js : List Instr} {s t u : State} {rs qs : List Word}
    (h : runCommands key is s = .ok (rs, t)) (h' : runCommands key js t = .ok (qs, u)) :
    runCommands key (is ++ js) s = .ok (rs ++ qs, u) := by
  induction is generalizing s rs with
  | nil => cases h; exact h'
  | cons i is ih =>
    simp only [runCommands, bind, Except.bind] at h
    split at h <;> [cases h; skip]
    rename_i ht
    split at h <;> [cases h; skip]
    rename_i hr
    cases h
    exact runCommands_cons ht (ih hr)

/-- A transaction that succeeds is a step with an OK response. -/
theorem transact_eq_ok {i : Instr} {key : KeyWord} {s t : State} (h : transact key i s = .ok t) :
    step (s.present (encode i) key) = .next t ∧ respCode t.resp = 0 := by
  unfold transact at h
  split at h
  · split at h <;> cases h
    exact ⟨‹_›, ‹_›⟩
  · cases h
  · cases h

theorem runCommands_codes {key : KeyWord} {is : List Instr} {s t : State} {rs : List Word}
    (h : runCommands key is s = .ok (rs, t)) : ∀ w ∈ rs, respCode w = 0 := by
  induction is generalizing s rs with
  | nil => cases h; simp
  | cons i is ih =>
    simp only [runCommands, bind, Except.bind] at h
    split at h <;> [cases h; skip]
    rename_i ht
    split at h <;> [cases h; skip]
    rename_i hr
    cases h
    simpa using ⟨(transact_eq_ok ht).2, ih hr⟩

/-- The recorder's sequence after a step (R199). -/
theorem history_cons {q : RecorderParams} {e : HostEvent} {es : List HostEvent} {s t : State}
    (h : step { s with inputs := e :: s.inputs } = .next t) :
    history q (e :: es) s = recordAfter q e t ++ history q es t := by
  simp only [history, h]

/-- The recorder's sequence after a transaction that succeeds: a transaction is one step. -/
theorem history_transact {q : RecorderParams} {key : KeyWord} {i : Instr} {es : List HostEvent}
    {s t : State} (h : transact key i s = .ok t) :
    history q (.command (encode i) key :: es) s =
      recordAfter q (.command (encode i) key) t ++ history q es t :=
  history_cons (transact_eq_ok h).1

@[simp] theorem recordAfter_rst (q : RecorderParams) (t : State) : recordAfter q .rst t = [] := rfl

theorem recordAfter_command {q : RecorderParams} {cmd : Word} {key : KeyWord} {i : Instr} {t : State}
    (h : decode cmd = .ok i) : recordAfter q (.command cmd key) t =
      if isRecorded i = true ∧ t.lastCode = .ok then [snapshotOf q t.observe] else [] := by
  simp only [recordAfter, h]

end Sys2Proof.Machine
end

