-- ==== Sys2Proof/Laws/PerInstr.lean ====
section
/-! SUPPORT. Statements per instruction: every well-formed instruction's word spells the opcode table's
row of its mnemonic (R84). -/

namespace Sys2Proof.Laws.WordSpellsRow

/-- The encoded word matches the row of the instruction's mnemonic. -/
def Statement (i : Instr) : Prop :=
  i.wellFormed = true → ∃ row ∈ opcodeTable, row.mnemonic = i.mnemonic ∧ row.spells (encode i) = true

/-- A symbol operand does not reach the bits the row fixes. -/
theorem sym_masked : ∀ op : Fin 16, ∀ s : Fin 64,
    (BitVec.ofNat 16 (4096 * op.val) ||| (BitVec.ofNat 16 s.val <<< 6)) &&& 0xF03F
      = BitVec.ofNat 16 (4096 * op.val) := by
  decide +kernel

/-- A coordinate pair does not reach the bits the row fixes. -/
theorem coord_masked : ∀ row col : Fin 8,
    ((0x3000 : Word) ||| (BitVec.ofNat 16 row.val <<< 3) ||| BitVec.ofNat 16 col.val) &&& 0xFFC0
      = 0x3000 := by
  decide +kernel

theorem nop : Statement .nop := fun _ => ⟨⟨.NOP, 0x0000, 0xFFFF⟩, by decide⟩

theorem loadKey : Statement .loadKey := fun _ => ⟨⟨.LOAD_KEY, 0x1000, 0xFFFF⟩, by decide⟩

theorem locate (s : Nat) : Statement (.locate s) := fun h =>
  ⟨⟨.LOCATE, 0x2000, 0xF03F⟩, by decide, rfl,
    decide_eq_true (sym_masked 2 ⟨s, of_decide_eq_true h⟩)⟩

theorem valueAt (row col : Nat) : Statement (.valueAt row col) := fun h =>
  have h' := Bool.and_eq_true_iff.1 h
  ⟨⟨.VALUE_AT, 0x3000, 0xFFC0⟩, by decide, rfl,
    decide_eq_true (coord_masked ⟨row, of_decide_eq_true h'.1⟩ ⟨col, of_decide_eq_true h'.2⟩)⟩

theorem pointerValue : Statement .pointerValue := fun _ => ⟨⟨.POINTER_VALUE, 0x4000, 0xFFFF⟩, by decide⟩

theorem enc (s : Nat) : Statement (.enc s) := fun h =>
  ⟨⟨.ENC, 0x5000, 0xF03F⟩, by decide, rfl,
    decide_eq_true (sym_masked 5 ⟨s, of_decide_eq_true h⟩)⟩

theorem dec (s : Nat) : Statement (.dec s) := fun h =>
  ⟨⟨.DEC, 0x6000, 0xF03F⟩, by decide, rfl,
    decide_eq_true (sym_masked 6 ⟨s, of_decide_eq_true h⟩)⟩

theorem absorb (s : Nat) : Statement (.absorb s) := fun h =>
  ⟨⟨.ABSORB, 0x7000, 0xF03F⟩, by decide, rfl,
    decide_eq_true (sym_masked 7 ⟨s, of_decide_eq_true h⟩)⟩

theorem endSession : Statement .endSession := fun _ => ⟨⟨.END_SESSION, 0x8000, 0xFFFF⟩, by decide⟩

end Sys2Proof.Laws.WordSpellsRow
end

