-- ==== Sys2Proof/Tests/Slice0.lean ====
section
/-! SUPPORT. Tests: the checks of WellFormed, a word of every constructor, one-step tests whose results
are vectors of 95_test_vectors.md (named in each comment), and a witness for every statement that has
hypotheses. -/

namespace Sys2Proof.Tests

open Sys2Proof Sys2Proof.Machine

-- One theorem at a time: a thread for each would ask for more memory than the check allows.
set_option Elab.async false

/-! ### States (95_test_vectors.md section 2) -/

/-- The tableau of the identity key. -/
def idTableau : Tableau :=
  #v[0, 1, 2, 3, 4, 5,
   6, 7, 8, 9, 10, 11,
   12, 13, 14, 15, 16, 17,
   18, 19, 20, 21, 22, 23,
   24, 25, 26, 27, 28, 29,
   30, 31, 32, 33, 34, 35]

/-- The tableau of the known vector's key (V-E2). -/
def k0Tableau : Tableau :=
  #v[33, 31, 7, 34, 13, 26,
   0, 24, 25, 10, 19, 1,
   3, 9, 27, 35, 30, 29,
   8, 11, 4, 5, 32, 12,
   28, 16, 14, 17, 22, 18,
   20, 23, 15, 2, 6, 21]

/-- The tableau after ENC 0 from the identity (V-T1). -/
def t1Tableau : Tableau :=
  #v[5, 31, 1, 2, 3, 4,
   6, 0, 8, 9, 10, 11,
   12, 7, 14, 15, 16, 17,
   18, 13, 20, 21, 22, 23,
   24, 19, 26, 27, 28, 29,
   30, 25, 32, 33, 34, 35]

/-- The tableau after ENC 28 from K0 (V-E2). -/
def e2Tableau : Tableau :=
  #v[33, 31, 7, 2, 13, 26,
   0, 24, 25, 34, 19, 1,
   3, 9, 27, 10, 30, 29,
   8, 11, 4, 35, 32, 12,
   18, 28, 16, 5, 17, 22,
   20, 23, 15, 14, 6, 21]

/-- The identity key's word. -/
def idKey : KeyWord := 0x8e28607de75c6da6585d65544d24503ce34c2ca2481c61440c2040

/-- The known vector's key word (V-S1). -/
def k0Key : KeyWord := 0x54608f5d449644e41c3201442c875e8db24305329960068d8877e1

/-- The identity with entry 35 set to 0 (V-K2). -/
def dupKey : KeyWord := 0x0228607de75c6da6585d65544d24503ce34c2ca2481c61440c2040

/-- The identity with entry 35 set to 36 (V-K3). -/
def badKey : KeyWord := 0x9228607de75c6da6585d65544d24503ce34c2ca2481c61440c2040

/-- A session with tableau `t`, pointer (0, 0), the rest as at reset: ID0 and K0. -/
def session (t : Tableau) : State := { State.reset with S := some t, I := some 0, J := some 0, V := true }

/-- A state whose tableau is no permutation, with `V = 1`: no run reaches it. -/
def flatSession : State := session (Vector.replicate 36 0)

/-- The reset state with a key on `KEY`. -/
def resetWithKey (key : KeyWord) : State := { State.reset with keyBus := key }

/-- Whether the outcome is a next state that `p` holds of. -/
def answers (o : Host.Outcome State Fault Refusal) (p : State → Bool) : Bool :=
  match o with
  | .next t => p t
  | .fault _ => false
  | .refused _ => false

theorem exists_next_of_answers {o : Host.Outcome State Fault Refusal} {p : State → Bool}
    (h : answers o p = true) : ∃ t, o = .next t ∧ p t = true := by
  match o with
  | .next t => exact ⟨t, rfl, h⟩
  | .fault _ => cases h
  | .refused _ => cases h

theorem next_of_answers {o : Host.Outcome State Fault Refusal} {t : State}
    (h : answers o (fun u => decide (u = t)) = true) : o = .next t := by
  obtain ⟨u, rfl, hu⟩ := exists_next_of_answers h
  rw [of_decide_eq_true hu]

/-- Whether the outcome is the fault `f`. -/
def faults (o : Host.Outcome State Fault Refusal) (f : Fault) : Bool :=
  match o with
  | .next _ => false
  | .fault g => decide (g = f)
  | .refused _ => false

theorem session_live (t : Tableau) : (session t).Live t 0 0 := ⟨rfl, rfl, rfl, rfl⟩

theorem id_wf : Memory.wf idTableau = true := by decide +kernel

theorem k0_wf : Memory.wf k0Tableau = true := by decide +kernel

/-! ### Well-formedness (R81, R91) -/

theorem test_locate_operand_too_wide : (Instr.locate 64).wellFormed = false := by decide

theorem test_enc_operand_too_wide : (Instr.enc 64).wellFormed = false := by decide

theorem test_dec_operand_too_wide : (Instr.dec 64).wellFormed = false := by decide

theorem test_absorb_operand_too_wide : (Instr.absorb 64).wellFormed = false := by decide

theorem test_row_operand_too_wide : (Instr.valueAt 8 0).wellFormed = false := by decide

theorem test_col_operand_too_wide : (Instr.valueAt 0 8).wellFormed = false := by decide

/-- R91: a legal encoding need not be a legal operand. -/
theorem test_legal_encoding_of_illegal_operand :
    (Instr.enc 36).wellFormed = true ∧ (Instr.valueAt 6 7).wellFormed = true := by decide

/-! ### Words written out from R81 and R84: OP, SYM, ROW, COL -/

theorem test_word_nop : decode 0b0000000000000000 = .ok .nop := by decide

theorem test_word_load_key : decode 0b0001000000000000 = .ok .loadKey := by decide

/-- OP 0010, SYM 100011. -/
theorem test_word_locate : decode 0b0010100011000000 = .ok (.locate 35) := by decide

/-- OP 0011, ROW 101, COL 010. -/
theorem test_word_value_at : decode 0b0011000000101010 = .ok (.valueAt 5 2) := by decide

theorem test_word_pointer_value : decode 0b0100000000000000 = .ok .pointerValue := by decide

/-- OP 0101, SYM 011100. -/
theorem test_word_enc : decode 0b0101011100000000 = .ok (.enc 28) := by decide

/-- OP 0110, SYM 000101. -/
theorem test_word_dec : decode 0b0110000101000000 = .ok (.dec 5) := by decide

/-- OP 0111, SYM 111111: the widest operand, not a legal value. -/
theorem test_word_absorb : decode 0b0111111111000000 = .ok (.absorb 63) := by decide

theorem test_word_end_session : decode 0b1000000000000000 = .ok .endSession := by decide

/-- R90: reserved opcodes, and words with a bit in an unused field. -/
theorem test_illegal_words :
    decode 0xF000 = .error (.reservedOpcode 15) ∧ decode 0x9000 = .error (.reservedOpcode 9) ∧
    decode 0x0001 = .error (.unusedFieldNonzero 0) ∧ decode 0x1040 = .error (.unusedFieldNonzero 1) ∧
    decode 0x3040 = .error (.unusedFieldNonzero 3) ∧ decode 0x5001 = .error (.unusedFieldNonzero 5) := by
  decide

/-- The opcode table's words, as the host asks for them. -/
theorem test_table_word : decodeTableWord 16 0x2380 = some (.locate 14) ∧
    decodeTableWord 16 0x9000 = none := by decide

/-- The step runs the placed word as the first instruction after reset. -/
theorem test_fetch_word : step (State.reset.withFetchWord 16 0x4000) = exec .pointerValue State.reset := rfl

/-! ### One step of each command -/

theorem test_nop : exec .nop (session idTableau) = .next (session idTableau) := next_of_answers (by decide +kernel)

/-- V-K1. -/
theorem test_load_key : exec .loadKey (resetWithKey idKey) =
    .next { session idTableau with keyBus := idKey } := next_of_answers (by decide +kernel)

/-- The known vector's key gives K0 (V-S1, V-E2). -/
theorem test_load_key_known : exec .loadKey (resetWithKey k0Key) =
    .next { session k0Tableau with keyBus := k0Key } := next_of_answers (by decide +kernel)

/-- V-L1. -/
theorem test_locate : exec (.locate 14) (session idTableau) =
    .next { session idTableau with resp := 0x1012 } := next_of_answers (by decide +kernel)

/-- V-L4. -/
theorem test_locate_known : exec (.locate 28) (session k0Tableau) =
    .next { session k0Tableau with resp := 0x1020 } := next_of_answers (by decide +kernel)

/-- V-A1. -/
theorem test_value_at : exec (.valueAt 3 4) (session idTableau) =
    .next { session idTableau with resp := 0x1580 } := next_of_answers (by decide +kernel)

/-- V-A4. -/
theorem test_value_at_known : exec (.valueAt 4 0) (session k0Tableau) =
    .next { session k0Tableau with resp := 0x1700 } := next_of_answers (by decide +kernel)

/-- V-P2. -/
theorem test_pointer_value : exec .pointerValue (session k0Tableau) =
    .next { session k0Tableau with resp := 0x1840 } := next_of_answers (by decide +kernel)

/-- V-P3, from the end state of V-E2. -/
theorem test_pointer_value_moved :
    exec .pointerValue { session e2Tableau with J := some 5 } =
      .next { session e2Tableau with J := some 5, resp := 0x1685 } := next_of_answers (by decide +kernel)

/-- V-T1: the row rotation moves the pointer's column and the target's column. -/
theorem test_enc : exec (.enc 0) (session idTableau) =
    .next { session t1Tableau with I := some 1, J := some 1, resp := 0x1000,
                                   snap := ⟨.enc, 0, 0, 0, 1, 0, 0⟩ } := next_of_answers (by decide +kernel)

/-- V-E2. -/
theorem test_enc_known : exec (.enc 28) (session k0Tableau) =
    .next { session e2Tableau with J := some 5, resp := 0x1140, snap := ⟨.enc, 4, 3, 3, 3, 28, 5⟩ } :=
  next_of_answers (by decide +kernel)

/-- V-E2's DEC. -/
theorem test_dec : exec (.dec 5) (session k0Tableau) =
    .next { session e2Tableau with J := some 5, resp := 0x1700, snap := ⟨.dec, 4, 3, 3, 3, 28, 5⟩ } :=
  next_of_answers (by decide +kernel)

/-- V-E2's ABSORB. -/
theorem test_absorb : exec (.absorb 28) (session k0Tableau) =
    .next { session e2Tableau with J := some 5, resp := 0x0000, snap := ⟨.absorb, 4, 3, 3, 3, 28, 5⟩ } :=
  next_of_answers (by decide +kernel)

/-- R193: the reset state but for the ports. -/
theorem test_end_session : exec .endSession { session e2Tableau with resp := 0x1140 } =
    .next State.reset := next_of_answers (by decide +kernel)

/-- The illegal word's error on a state that holds a session (R224). -/
theorem test_illegal_step :
    step ((session idTableau).present 0x9000 0) = .next { session idTableau with
      resp := 0x8000, lastCode := .illegalCommand } := next_of_answers (by decide +kernel)

/-! ### Witnesses: reset, the step, the invariant -/

theorem witness_ResetEventResetsEveryElement :
    ({ session e2Tableau with inputs := [.rst] } : State).inputs = .rst :: [] := by decide

theorem witness_ResetOverwritesACommand :
    ∃ t, step { State.reset with inputs := [.command 0x1000 idKey, .rst] } = .next t ∧
      decide (t.V = true ∧ t.inputs = [.rst]) = true :=
  exists_next_of_answers (by decide +kernel)

theorem witness_CommandStepRunsDecodedInstruction :
    ({ session idTableau with inputs := [.command 0x5000 0] } : State).inputs = .command 0x5000 0 :: [] ∧
    decode 0x5000 = .ok (.enc 0) := by decide

theorem witness_IdleStepHoldsState : State.reset.inputs = [] := by decide

/-- The lowest and the highest reserved opcode, and one unused bit. -/
theorem witness_IllegalWordRaisesIllegalCommand :
    (∀ row ∈ opcodeTable, (0x9000 : Word) &&& row.mask ≠ row.pattern) ∧
    (∀ row ∈ opcodeTable, (0xFFFF : Word) &&& row.mask ≠ row.pattern) ∧
    (∀ row ∈ opcodeTable, (0x5001 : Word) &&& row.mask ≠ row.pattern) ∧
    (State.reset.present 0x9000 0).inputs = .command 0x9000 0 :: [] := by decide +kernel

theorem witness_StepKeepsInvariant :
    ((session idTableau).present 0x5000 0).Inv ∧
    ∃ t, step ((session idTableau).present 0x5000 0) = .next t ∧ decide (t.snap.kind = .enc) = true :=
  ⟨by unfold State.Inv; decide +kernel, exists_next_of_answers (by decide +kernel)⟩

/-- With a session, without one, and after an error. -/
theorem witness_StepNeverStops :
    ((session k0Tableau).present 0x6140 0).Inv ∧ (State.reset.present 0x1000 dupKey).Inv ∧
    ({ State.reset with resp := 0x6000, lastCode := .notKeyed } : State).Inv := by
  unfold State.Inv; decide +kernel

/-! ### Witnesses: encoding -/

theorem witness_DecodeOfEncode :
    (Instr.locate 63).wellFormed = true ∧ (Instr.valueAt 7 7).wellFormed = true ∧
    (Instr.enc 0).wellFormed = true := by decide

theorem witness_EncodeOfDecode : decode 0x303F = .ok (.valueAt 7 7) := by decide

theorem witness_TableRowsAreTheDecoder :
    (⟨.LOCATE, 0x2000, 0xF03F⟩ : OpcodeRow) ∈ opcodeTable ∧
    ((0x2FC0 : Word) &&& 0xF03F) = 0x2000 ∧ (63 : Nat) < 64 ∧ (7 : Nat) < 8 := by decide

/-- The identity key is a list of 36 entries; its word is the spec's. -/
theorem witness_KeyWordCarriesEntries :
    (List.finRange 36).length = 36 ∧ 35 < (List.finRange 36).length ∧
    keyWordOf (List.finRange 36) = idKey := by decide +kernel

theorem witness_ResponseWordLayout :
    ∃ t, exec (.locate 36) (session idTableau) = .next t ∧ decide (respCode t.resp ≠ 0) = true :=
  exists_next_of_answers (by decide +kernel)

theorem witness_ObservationPort : (session idTableau).V = true ∧ State.reset.V = false := by decide

/-! ### Witnesses: session and tableau commands -/

theorem witness_EndSessionDiscardsTheTableau :
    needsTableau (.enc 0) = true ∧
    ∃ t, exec .endSession (session idTableau) = .next t ∧ decide (t.S = none) = true :=
  ⟨rfl, exists_next_of_answers (by decide +kernel)⟩

theorem witness_ValidBitLifetime :
    (needsTableau (.absorb 63) = true ∧ State.reset.V = false) ∧
    ∃ t, exec .loadKey (resetWithKey k0Key) = .next t ∧ decide (t.lastCode = .ok) = true :=
  ⟨⟨rfl, rfl⟩, exists_next_of_answers (by decide +kernel)⟩

/-- An entry of 36; the entries of the duplicate key; the entries of the identity. -/
theorem witness_LoadKeyFillsTheTableau :
    35 < keyEntry badKey 35 ∧
    ((∀ k : Fin 36, keyEntry dupKey k.val ≤ 35) ∧ (0 : Nat) ≠ 35 ∧ keyEntry dupKey 0 = keyEntry dupKey 35) ∧
    (∀ k : Fin 36, keyEntry idKey k.val ≤ 35) ∧
    (∀ k k' : Fin 36, keyEntry idKey k.val = keyEntry idKey k'.val → k = k') := by decide +kernel

/-- LOAD_KEY ends each of its three ways (V-K1, V-K2, V-K3). -/
theorem witness_LoadKeyAcceptsExactlyPermutations :
    answers (exec .loadKey (resetWithKey idKey)) (fun t => decide (t.lastCode = .ok)) = true ∧
    answers (exec .loadKey (resetWithKey dupKey)) (fun t => decide (t.lastCode = .invalidKey)) = true ∧
    answers (exec .loadKey (resetWithKey badKey)) (fun t => decide (t.lastCode = .invalidSymbol)) = true := by
  decide +kernel

/-- V-K6: from another session's state. -/
theorem witness_LoadKeyForgetsTheOldState :
    (resetWithKey idKey).keyBus = ({ session e2Tableau with keyBus := idKey } : State).keyBus ∧
    ∃ t, exec .loadKey (resetWithKey idKey) = .next t ∧ decide (t.lastCode = .ok) = true :=
  ⟨rfl, exists_next_of_answers (by decide +kernel)⟩

/-- The symbols 35 and 36, and a second run of the command. -/
theorem witness_LocateAnswersThePlace :
    State.reset.V = false ∧ (session idTableau).V = true ∧ (35 : Nat) < 36 ∧
    (session idTableau).Live idTableau 0 0 ∧ Memory.wf idTableau = true ∧ (35 : Nat) ≤ 35 ∧
    ∃ t, exec (.locate 35) (session idTableau) = .next t ∧ decide (t.resp = 0x102D) = true :=
  ⟨rfl, rfl, by decide, session_live _, id_wf, by decide, exists_next_of_answers (by decide +kernel)⟩

/-- The coordinates 5 and 6. -/
theorem witness_ValueAtAnswersTheCell :
    State.reset.V = false ∧ (session idTableau).V = true ∧ (5 : Nat) < 6 ∧ (5 : Nat) ≤ 5 ∧
    (session idTableau).Live idTableau 0 0 ∧
    (∃ t, exec (.valueAt 5 5) (session idTableau) = .next t ∧ decide (t.resp = 0x18C0) = true) ∧
    ∃ t, exec (.valueAt 0 6) (session idTableau) = .next t ∧ decide (t.resp = 0xA000) = true :=
  ⟨rfl, rfl, by decide, by decide, session_live _, exists_next_of_answers (by decide +kernel),
    exists_next_of_answers (by decide +kernel)⟩

theorem witness_PointerValueAnswersThePointedCell :
    State.reset.V = false ∧ (session k0Tableau).Live k0Tableau 0 0 := ⟨rfl, session_live _⟩

/-! ### Witnesses: TRANSITION and the step commands -/

theorem witness_RotationsMoveValues : (1 : Coord) ≠ 0 := by decide

/-- V-T1: `x = r`, `I = r` and `J = yr` all hold, so every sub-step acts. -/
theorem witness_TransitionRunsSevenSubSteps :
    let d : Descriptor := ⟨0, 0, 0, 0⟩
    let k : Keyed := ⟨idTableau, 0, 0⟩
    (∀ a c : Coord, valueAt (rotRowRight d.r k.S) a c =
      if a = d.r then valueAt k.S a (c - 1) else valueAt k.S a c) ∧
    (1 : Coord) = (if d.x = d.r then d.y + 1 else d.y) ∧
    (1 : Coord) = (if k.I = d.r then k.J + 1 else k.J) ∧
    (1 : Coord) = (if (1 : Coord) = 1 then k.I + 1 else k.I) := by decide +kernel

theorem witness_TargetFollowsCiphertext :
    valueAt k0Tableau 3 3 = 5 := by decide +kernel

theorem witness_TransitionKeepsPermutation : Memory.wf (Keyed.mk k0Tableau 0 0).S = true := k0_wf

theorem witness_TransitionWritesOneRowAndOneColumn :
    (0 : Coord) ≠ (Descriptor.mk 4 3 3 5).r ∧ (0 : Coord) ≠ rotatedColumn ⟨4, 3, 3, 5⟩ := by decide

/-- The symbols 35 and 36. -/
theorem witness_EncRunsOneTransition :
    State.reset.V = false ∧ (session k0Tableau).V = true ∧ (35 : Nat) < 36 ∧
    (session k0Tableau).Live k0Tableau 0 0 ∧ Memory.wf k0Tableau = true ∧ (35 : Nat) ≤ 35 :=
  ⟨rfl, rfl, by decide, session_live _, k0_wf, by decide⟩

/-- The symbols 35 and 63. -/
theorem witness_DecRunsOneTransition :
    State.reset.V = false ∧ (session idTableau).V = true ∧ (35 : Nat) < 63 ∧
    (session idTableau).Live idTableau 0 0 ∧ Memory.wf idTableau = true ∧ (35 : Nat) ≤ 35 :=
  ⟨rfl, rfl, by decide, session_live _, id_wf, by decide⟩

/-- The symbols 0 and 36. -/
theorem witness_AbsorbRunsOneTransition :
    State.reset.V = false ∧ (session k0Tableau).V = true ∧ (35 : Nat) < 36 ∧
    (session k0Tableau).Live k0Tableau 0 0 ∧ Memory.wf k0Tableau = true ∧ (0 : Nat) ≤ 35 :=
  ⟨rfl, rfl, by decide, session_live _, k0_wf, by decide⟩

/-- V-E2: ENC 28 answers 5 and DEC 5 answers 28. -/
theorem witness_EncAndDecInvertEachOther :
    (session k0Tableau).Live k0Tableau 0 0 ∧ Memory.wf k0Tableau = true ∧ (28 : Nat) ≤ 35 ∧ (5 : Nat) ≤ 35 ∧
    (∃ t, exec (.enc 28) (session k0Tableau) = .next t ∧ decide ((respDsym t.resp).toNat = 5) = true) ∧
    ∃ u, exec (.dec 5) (session k0Tableau) = .next u ∧ decide ((respDsym u.resp).toNat = 28) = true :=
  ⟨session_live _, k0_wf, by decide, by decide, exists_next_of_answers (by decide +kernel),
    exists_next_of_answers (by decide +kernel)⟩

theorem witness_EncIsABijection :
    (session idTableau).Live idTableau 0 0 ∧ Memory.wf idTableau = true := ⟨session_live _, id_wf⟩

/-- A success, an error and a fault. -/
theorem witness_AbsorbIsEncWithoutOutput :
    (∃ t, exec (.enc 28) (session k0Tableau) = .next t ∧ decide (t.lastCode = .ok) = true) ∧
    (∃ t, exec (.enc 36) (session k0Tableau) = .next t ∧ decide (t.lastCode ≠ .ok) = true) ∧
    faults (exec (.enc 1) flatSession) .locateMiss = true :=
  ⟨exists_next_of_answers (by decide +kernel), exists_next_of_answers (by decide +kernel),
    by decide +kernel⟩

/-! ### Witnesses: errors and frames -/

/-- One state for each code. -/
theorem witness_ErrorsHaveTheirCauses :
    answers (exec .pointerValue State.reset) (fun t => decide (t.lastCode = .notKeyed)) = true ∧
    answers (exec (.dec 36) (session idTableau)) (fun t => decide (t.lastCode = .invalidSymbol)) = true ∧
    answers (exec (.valueAt 6 0) (session idTableau)) (fun t => decide (t.lastCode = .badCoord)) = true ∧
    answers (exec .loadKey (resetWithKey badKey)) (fun t => decide (t.lastCode = .invalidSymbol)) = true ∧
    answers (exec .loadKey (resetWithKey dupKey)) (fun t => decide (t.lastCode = .invalidKey)) = true ∧
    symbolOf (.dec 36) = some 36 := by decide +kernel

/-- V-K5: a rejected key leaves the session in place. -/
theorem witness_ErrorsChangeNothingElse :
    ∃ t, exec .loadKey { session e2Tableau with keyBus := dupKey } = .next t ∧
      decide (t.lastCode ≠ .ok) = true := exists_next_of_answers (by decide +kernel)

theorem witness_FailingCommandFailsAgain :
    ∃ t, exec (.enc 0) State.reset = .next t ∧ decide (t.lastCode ≠ .ok) = true :=
  exists_next_of_answers (by decide +kernel)

/-- States no run reaches: the session bit without a tableau, without a row, without a column. -/
theorem witness_ReadingBottomFaults :
    ({ State.reset with V := true } : State).V = true ∧ ({ State.reset with V := true } : State).S = none ∧
    ({ session idTableau with I := none } : State).I = none ∧
    ({ session idTableau with J := none } : State).V = true ∧
    ({ session idTableau with J := none } : State).J = none ∧ (5 : Nat) ≤ 5 ∧ (35 : Nat) ≤ 35 := by decide

theorem witness_QueriesWriteOnlyTheResponse :
    (∃ t, exec .nop State.reset = .next t ∧ decide (t.resp = 0) = true) ∧
    (∃ t, exec (.locate 28) (session k0Tableau) = .next t ∧ decide (t.resp = 0x1020) = true) ∧
    (∃ t, exec (.valueAt 5 5) (session k0Tableau) = .next t ∧ decide (t.lastCode = .ok) = true) ∧
    ∃ t, exec .pointerValue (session k0Tableau) = .next t ∧ decide (t.resp = 0x1840) = true :=
  ⟨exists_next_of_answers (by decide +kernel), exists_next_of_answers (by decide +kernel),
    exists_next_of_answers (by decide +kernel), exists_next_of_answers (by decide +kernel)⟩

/-- V-E2's descriptor, for ENC, ABSORB and DEC, and an error of ENC. -/
theorem witness_StepCommandsFrame :
    let k : Keyed := ⟨k0Tableau, 0, 0⟩
    let e : StepValues := ⟨⟨4, 3, 3, 5⟩, 28⟩
    readKeyed (session k0Tableau) = .ok k ∧ encryptStep k 28 = .ok e ∧ decryptStep k 5 = .ok e ∧
    answers (exec (.enc 28) (session k0Tableau)) (fun t => decide (t.lastCode = .ok)) = true ∧
    answers (exec (.absorb 28) (session k0Tableau)) (fun t => decide (t.lastCode = .ok)) = true ∧
    answers (exec (.dec 5) (session k0Tableau)) (fun t => decide (t.lastCode = .ok)) = true ∧
    answers (exec (.enc 36) (session k0Tableau)) (fun t => decide (t.lastCode ≠ .ok)) = true ∧
    (0 : Coord) ≠ e.d.r ∧ (0 : Coord) ≠ rotatedColumn e.d := by decide +kernel

theorem witness_EveryCommandLeavesThePorts :
    (Instr.locate 0 ≠ .loadKey ∧ Instr.locate 0 ≠ .endSession ∧ (∀ n, Instr.locate 0 ≠ .enc n) ∧
      (∀ n, Instr.locate 0 ≠ .dec n) ∧ ∀ n, Instr.locate 0 ≠ .absorb n) ∧
    ∃ t, exec (.locate 0) (session idTableau) = .next t ∧ decide (t.resp = 0x1000) = true :=
  ⟨by simp, exists_next_of_answers (by decide +kernel)⟩

/-- A next state and a fault. -/
theorem witness_KeyIsIgnoredUnlessLoaded :
    Instr.enc 28 ≠ .loadKey ∧
    (∃ t, exec (.enc 28) (session k0Tableau) = .next t ∧ decide (t.lastCode = .ok) = true) ∧
    faults (exec (.enc 1) flatSession) .locateMiss = true :=
  ⟨by simp, exists_next_of_answers (by decide +kernel), by decide +kernel⟩

theorem witness_SnapshotIsAPureObserver :
    (∃ t, exec (.dec 5) (session k0Tableau) = .next t ∧ decide (t.lastCode = .ok) = true) ∧
    ∃ t, exec (.dec 36) (session k0Tableau) = .next t ∧ decide (t.lastCode ≠ .ok) = true :=
  ⟨exists_next_of_answers (by decide +kernel), exists_next_of_answers (by decide +kernel)⟩

/-! ### Witnesses: the host's side -/

/-- The host's default parameters (R9). -/
def defaultHost : HostParams := ⟨Config.defaultSymbols, true⟩

/-- A key that is a permutation of the default alphabet, and one that repeats its first symbol. -/
def sampleKey : List Char := Config.defaultSymbols

def repeatedKey : List Char := '#' :: '#' :: Config.defaultSymbols.drop 2

theorem exists_ok {ε α : Type} {o : Except ε α} (h : o.toOption.isSome = true) : ∃ a, o = .ok a := by
  match o with
  | .ok a => exact ⟨a, rfl⟩
  | .error _ => cases h

theorem forall_mem_of_all {l : List Char} {p : Char → Bool} (h : l.all p = true) :
    ∀ ch ∈ l, p ch = true := List.all_eq_true.1 h

theorem default_folds : ∀ ch ∈ defaultHost.symbols, ch.toLower = ch := fun ch h =>
  of_decide_eq_true (forall_mem_of_all (p := fun ch => decide (ch.toLower = ch)) (by decide +kernel) ch h)

/-- Every character of `l` is in the default alphabet. -/
theorem in_default {l : List Char}
    (h : (l.all fun ch => decide (foldCase true ch ∈ Config.defaultSymbols)) = true) :
    ∀ ch ∈ l, foldCase defaultHost.caseFold ch ∈ defaultHost.symbols := fun ch hc =>
  of_decide_eq_true (forall_mem_of_all h ch hc)

/-- The default alphabet meets every premise: 36 distinct symbols that case folding leaves alone. -/
theorem witness_AlphabetIndexAndSymbolInvert :
    (∃ a, buildAlphabet Config.defaultSymbols = .ok a) ∧
    (∀ ch ∈ Config.defaultSymbols, ch.toLower = ch) ∧
    foldCase true '%' ∉ Config.defaultSymbols :=
  ⟨⟨_, rfl⟩, default_folds, by decide +kernel⟩

/-- A bad alphabet; a bad character in the key; a short key; a repeated symbol; a bad character in the
header with everything else right; a message with no fault, encrypted. -/
theorem witness_HostChecksComeFirst :
    ¬ ((['a', 'a'] : List Char).length = 36) ∧
    (defaultHost.symbols.length = 36 ∧ defaultHost.symbols.Nodup) ∧
    (∃ ch ∈ ['%'], foldCase defaultHost.caseFold ch ∉ defaultHost.symbols) ∧
    ((∀ ch ∈ ['a'], foldCase defaultHost.caseFold ch ∈ defaultHost.symbols) ∧ ['a'].length ≠ 36) ∧
    ((∀ ch ∈ repeatedKey, foldCase defaultHost.caseFold ch ∈ defaultHost.symbols) ∧
      repeatedKey.length = 36 ∧ ¬ (repeatedKey.map (foldCase defaultHost.caseFold)).Nodup) ∧
    ((∀ ch ∈ sampleKey, foldCase defaultHost.caseFold ch ∈ defaultHost.symbols) ∧
      sampleKey.length = 36 ∧ (sampleKey.map (foldCase defaultHost.caseFold)).Nodup ∧
      (∃ ch ∈ (([] : List Char) ++ ['!'] ++ ['a']), foldCase defaultHost.caseFold ch ∉ defaultHost.symbols) ∧
      ∀ ch ∈ (['s'] ++ [] ++ ['A', '#']), foldCase defaultHost.caseFold ch ∈ defaultHost.symbols) ∧
    (∃ plaintext signature, ['A', '#'] = plaintext ++ signature ∧
      encryptMsg defaultHost State.reset sampleKey ['A'] ['s'] [] ['#'] =
        encryptMsg defaultHost State.reset sampleKey plaintext ['s'] [] signature) :=
  ⟨by decide, by decide +kernel, ⟨'%', by simp, by decide +kernel⟩,
    ⟨in_default (by decide +kernel), by decide⟩,
    ⟨in_default (by decide +kernel), by decide +kernel, by decide +kernel⟩,
    ⟨in_default (by decide +kernel), by decide +kernel, by decide +kernel, ⟨'!', by simp, by decide +kernel⟩,
      in_default (by decide +kernel)⟩, ['A'], ['#'], rfl, rfl⟩

/-- Upper case in the plaintext, a nonce, a header and a signature. -/
theorem witness_EncryptMessageIsItsCommands :
    ∃ c, hostCheck defaultHost sampleKey ['s', 'o'] ['#'] (['A', 'z'] ++ ['#', 'b']) = .ok c :=
  exists_ok (by decide +kernel)

theorem witness_DecryptingGivesThePlaintextBack :
    (∀ ch ∈ defaultHost.symbols, ch.toLower = ch) ∧
    ∃ c, hostCheck defaultHost sampleKey ['s', 'o'] ['#'] (['A', 'z'] ++ ['#', 'b']) = .ok c :=
  ⟨default_folds, exists_ok (by decide +kernel)⟩

/-- Both directions. -/
theorem witness_HistoryHasOneSnapshotPerTransition :
    ∃ c commands commands', hostCheck defaultHost sampleKey ['s'] [] ['a'] = .ok c ∧
      commands = encryptCommands c ∧ commands' = decryptCommands c := by
  obtain ⟨c, hc⟩ := exists_ok (o := hostCheck defaultHost sampleKey ['s'] [] ['a']) (by decide +kernel)
  exact ⟨c, _, _, hc, rfl, rfl⟩

/-- An empty ciphertext and one in capitals. -/
theorem witness_DecryptMessageIsItsCommands :
    (∃ c, hostCheck defaultHost sampleKey [] [] [] = .ok c) ∧
    ∃ c, hostCheck defaultHost sampleKey ['s'] ['_'] ['Z', '9'] = .ok c :=
  ⟨exists_ok (by decide +kernel), exists_ok (by decide +kernel)⟩

/-- The four commands the recorder reads the port after. -/
theorem witness_SnapshotShowsTheStep :
    (∃ t, exec .loadKey (resetWithKey k0Key) = .next t ∧ decide (t.lastCode = .ok) = true) ∧
    (∃ t, exec (.enc 28) (session k0Tableau) = .next t ∧ decide (t.lastCode = .ok) = true) ∧
    (∃ t, exec (.dec 5) (session k0Tableau) = .next t ∧ decide (t.lastCode = .ok) = true) ∧
    (∃ t, exec (.absorb 28) (session k0Tableau) = .next t ∧ decide (t.lastCode = .ok) = true) ∧
    (RecorderParams.mk .descriptor ⟨true, true⟩ ⟨false, false⟩ ⟨false, false⟩).ySel = .descriptor ∧
    (RecorderParams.mk .rotated ⟨false, true⟩ ⟨false, false⟩ ⟨true, false⟩).ySel = .rotated :=
  ⟨exists_next_of_answers (by decide +kernel), exists_next_of_answers (by decide +kernel),
    exists_next_of_answers (by decide +kernel), exists_next_of_answers (by decide +kernel), rfl, rfl⟩

/-- P4, commands 4 to 8: three errors in a live session leave no snapshot and do not end the recording;
ENC 28 then has V-E2's, with the descriptor's row 4 and column 3. A reserved word and a reset before the
LOAD_KEY leave none either. -/
theorem test_history_after_errors :
    (history ⟨.descriptor, ⟨true, true⟩, ⟨false, false⟩, ⟨false, false⟩⟩
      [.command 0x5000 0, .command 0x9000 0, .rst, .command 0x1000 dupKey, .command 0x1000 k0Key,
        .command 0x3030 0, .command 0x5A00 0, .command 0x5001 0, .command 0x5700 0] State.reset) =
      [⟨some k0Tableau, some 0, some 0, 0, 0, none, none⟩,
        ⟨some e2Tableau, some 0, some 5, 4, 3, some 28, some 5⟩] := by decide +kernel

/-- R209: a change of the known nonce under which the known key still gives `i` the ciphertext `i`. -/
theorem test_divergence_counterexample :
    ciphertextOf defaultHost State.reset Config.knownKey ['i'] ['n', 'o', 'l', 'w', 'b', 'f'] []
      = .ok ['i'] := by decide +kernel

/-- R209: 630 transpositions of the key; 210 changes of the nonce, the one above among them. -/
theorem test_single_changes :
    (transpositions Config.knownKey).length = 630 ∧
    (replacements Config.defaultSymbols Config.knownNonce).length = 210 ∧
    ['n', 'o', 'l', 'w', 'b', 'f'] ∈ replacements Config.defaultSymbols Config.knownNonce := by
  decide +kernel

/-- A recorded command, an error, a query and a reset, for the clauses on single events. -/
theorem witness_HistoryHasOneSnapshotPerTransition_events :
    (∃ t, step { session k0Tableau with inputs := [.command 0x5700 0] } = .next t ∧
      decide (t.lastCode = .ok) = true) ∧ decode 0x5700 = .ok (.enc 28) ∧
    (∃ t, step { session k0Tableau with inputs := [.command 0x5A00 0] } = .next t ∧
      decide (t.lastCode ≠ .ok) = true) ∧
    (∃ t, step { session k0Tableau with inputs := [.command 0x4000 0] } = .next t ∧
      decide (t.lastCode = .ok) = true) ∧ decode 0x4000 = .ok .pointerValue ∧
    ∃ t, step { session k0Tableau with inputs := [.rst] } = .next t ∧ decide (t.V = false) = true :=
  ⟨exists_next_of_answers (by decide +kernel), by decide, exists_next_of_answers (by decide +kernel),
    exists_next_of_answers (by decide +kernel), by decide, exists_next_of_answers (by decide +kernel)⟩

/-- V-T1 through the two values of SNAPSHOT_Y_SEL: the descriptor's `y` is 0 and the rotated one 1. -/
theorem test_snapshot_y :
    answers (exec (.enc 0) (session idTableau)) (fun t =>
      decide ((snapshotOf ⟨.descriptor, ⟨true, true⟩, ⟨false, false⟩, ⟨false, false⟩⟩ t.observe).y = 0 ∧
        (snapshotOf ⟨.rotated, ⟨true, true⟩, ⟨false, true⟩, ⟨false, false⟩⟩ t.observe).y = 1 ∧
        (snapshotOf ⟨.rotated, ⟨true, true⟩, ⟨false, true⟩, ⟨false, false⟩⟩ t.observe).ct = none)) = true := by
  decide +kernel

/-- The default alphabet as the assembler takes it. -/
def defaultAlphabet : Alphabet := ⟨Config.defaultSymbols.toArray, rfl⟩

/-- The literal of 28, the index 63, the index 64 and a foreign literal. -/
theorem witness_AssembledWordDecodes_symbols :
    asmIndex true defaultAlphabet (.literal 's') = .ok 28 ∧
    asmIndex true defaultAlphabet (.index 63) = .ok 63 ∧
    asmIndex true defaultAlphabet (.index 64) = .error .invalidSymbol ∧
    foldCase true '%' ∉ defaultAlphabet.toList ∧
    (∀ n, asmIndex true defaultAlphabet (.index 64) ≠ .ok n) :=
  ⟨rfl, rfl, rfl, by decide +kernel, fun n h => by cases h⟩

/-- The identity key as indices; the coordinates 7 and 8; a list of one entry. -/
theorem witness_AssembledWordDecodes_key :
    List.Forall₂ (fun o n => asmIndex true defaultAlphabet o = .ok n)
      ((List.range 36).map .index) (List.range 36) ∧ (List.range 36).length = 36 ∧
    (7 : Nat) < 8 ∧ (8 : Nat) ≤ 8 ∧
    List.Forall₂ (fun o n => asmIndex true defaultAlphabet o = .ok n) [.index 0] [0] ∧
    [(0 : Nat)].length ≠ 36 ∧
    SymOperand.index 64 ∈ [SymOperand.index 0, .index 64] :=
  ⟨by
    rw [List.forall₂_map_left_iff, List.forall₂_same]
    intro n hn
    simp only [asmIndex, if_pos (show n < 64 by have := List.mem_range.1 hn; omega)],
    rfl, by decide, by decide, .cons rfl .nil, by decide, by decide⟩

/-- R93's lines as text: a literal, an index with a comment, and the key as a string. -/
theorem test_assemble_line :
    ((assembleLine defaultHost ['E', 'N', 'C', ' ', '\'', 's', '\'']).toOption.bind id).map (·.word)
      = some 0x5700 ∧
    ((assembleLine defaultHost ['D', 'E', 'C', '\t', '5', ' ', ';', 'x']).toOption.bind id).map (·.word)
      = some 0x6140 ∧
    ((assembleLine defaultHost (['L', 'O', 'A', 'D', '_', 'K', 'E', 'Y', ' ', '"'] ++
      Config.defaultSymbols ++ ['"'])).toOption.bind id).bind (·.key) = some idKey := by
  decide +kernel

end Sys2Proof.Tests
end

/-! SUPPORT. The state family (10_state.md): what reset holds, when `V` changes, and what the `STATUS` view
and the observation port show. -/

namespace Sys2Proof.Machine

/-! ### A tableau command without a session (R223) -/

/-- A computation that begins with the check of `V` raises NOT_KEYED while `V = 0`, whatever follows. -/
theorem finish_needKeyed_of_not_valid {s : State} (hV : s.V = false)
    (rest : Unit → Except Stop State) :
    finish s (needKeyed s >>= rest) = .next (s.raise .notKeyed) := by
  rw [needKeyed_of_not_valid hV, stop_bind_error, finish_raise]

theorem exec_of_not_valid {i : Instr} {s : State} (hi : needsTableau i = true) (hV : s.V = false) :
    exec i s = .next (s.raise .notKeyed) := by
  cases i with
  | nop | loadKey | endSession => cases hi
  | locate | valueAt | pointerValue | enc | dec | absorb => exact finish_needKeyed_of_not_valid hV _

/-! ### LOAD_KEY by what its operand is (R111) -/

theorem exec_loadKey_of_raise {s : State} {code : Code}
    (hk : keyOperand s.keyBus = .error (.raise code)) : exec .loadKey s = .next (s.raise code) := by
  simp only [exec, execLoadKey, hk, stop_bind_error, finish_raise]

theorem exec_loadKey_of_tableau {s : State} {T : Tableau} (hk : keyOperand s.keyBus = .ok T) :
    exec .loadKey s = .next
      ((((s.writeKeyed ⟨T, 0, 0⟩).writeValid true).writeSnap Snap.cleared).respond .ok false 0 0 0) := by
  simp only [exec, execLoadKey, hk, stop_bind_ok, stop_pure, finish_ok]

/-! ### When `V` changes (R27) -/

/-- A LOAD_KEY sets `V` when its response is OK and keeps it when it raised. -/
theorem exec_loadKey_V {s t : State} (h : exec .loadKey s = .next t) :
    t.V = if t.lastCode = .ok then true else s.V := by
  obtain ⟨_, hk⟩ | ⟨_, _, hk⟩ | ⟨_, _, T, hk, _⟩ := keyOperand_cases s.keyBus
  · cases (exec_loadKey_of_raise hk).symm.trans h; simp
  · cases (exec_loadKey_of_raise hk).symm.trans h; simp
  · cases (exec_loadKey_of_tableau hk).symm.trans h; simp

theorem exec_endSession_V {s t : State} (h : exec .endSession s = .next t) : t.V = false := by
  cases h; rfl

/-- Every raise, and every success but those of LOAD_KEY and END_SESSION, keeps `V`. -/
theorem exec_V_eq {i : Instr} {s t : State} (h : exec i s = .next t) (hl : i ≠ .loadKey)
    (he : i ≠ .endSession) : t.V = s.V := by
  have ho := exec_outcome i s
  rw [h] at ho
  cases ho with
  | loadKey T hi => exact absurd hi hl
  | endSession hi => exact absurd hi he
  | _ => rfl

/-- Settles O21: without a session the check of `V` comes first, and of the ways a command can end only
LOAD_KEY's success and END_SESSION write `V`. -/
theorem validBitLifetime : Obligations.ValidBitLifetime := by
  refine ⟨rfl, fun i s hi hV => exec_of_not_valid hi hV, fun i s t h => ?_⟩
  cases i with
  | loadKey => exact exec_loadKey_V h
  | endSession => exact exec_endSession_V h
  | nop | locate | valueAt | pointerValue | enc | dec | absorb =>
    exact exec_V_eq h (by simp) (by simp)

/-! ### Reset, STATUS and the observation port (R39, R30, R36) -/

/-- Settles O1: every element of `State.reset` is R39's value as written. -/
theorem resetValues : Obligations.ResetValues :=
  ⟨rfl, rfl, rfl, rfl, rfl, rfl, rfl, rfl, rfl, rfl, rfl, rfl, rfl⟩

/-- Settles O17: a field starts at the sum of the widths below it, so extracting it skips those fields and
takes the next one whole. -/
theorem statusLayout : Obligations.StatusLayout := by
  intro s
  unfold State.status
  refine ⟨BitVec.extractLsb'_append_eq_right, ?_, ?_, ?_⟩
  · rw [BitVec.extractLsb'_append_eq_of_le (by decide)]
    exact BitVec.extractLsb'_append_eq_right
  · iterate 2 rw [BitVec.extractLsb'_append_eq_of_le (by decide)]
    exact BitVec.extractLsb'_append_eq_right
  · iterate 3 rw [BitVec.extractLsb'_append_eq_of_le (by decide)]
    exact BitVec.extractLsb'_eq_self

theorem State.observe_of_valid {s : State} (hV : s.V = true) :
    s.observe = ⟨s.S, s.I, s.J, s.status, s.resp, s.snap⟩ := by
  simp only [State.observe, hV, if_true]

theorem State.observe_of_not_valid {s : State} (hV : s.V = false) :
    s.observe = ⟨none, none, none, s.status, s.resp, s.snap⟩ := by
  simp only [State.observe, hV, Bool.false_eq_true, if_false]

/-- Settles O18, by the value of `V`. -/
theorem observationPort : Obligations.ObservationPort :=
  ⟨fun _ hV => State.observe_of_valid hV, fun _ hV => State.observe_of_not_valid hV⟩

end Sys2Proof.Machine

/-! SUPPORT. The memory family (20_memory.md): what each cell of a rotated tableau holds. -/

namespace Sys2Proof.Machine

/-! ### Rotations in the spec's index arithmetic (R54, R55) -/

/-- The coordinate before `c`, as R54 and R55 write it. -/
theorem coord_sub_one_eq_mod (c : Coord) : c - 1 = ⟨(c.val + 5) % 6, by omega⟩ := by
  rw [← coord_add_five]
  exact Fin.ext (Fin.val_add c 5)

/-- Settles O28: each cell of a rotated tableau reads the cell one place before it on the turned line. -/
theorem rotationsMoveOneLine : Obligations.RotationsMoveOneLine := by
  refine ⟨fun t r a c => ?_, fun t y a c => ?_⟩
  · rw [valueAt_rotRowRight, coord_sub_one_eq_mod]
  · rw [valueAt_rotColDown, coord_sub_one_eq_mod]

end Sys2Proof.Machine

/-! SUPPORT. The encoding family (30_encoding.md): the decoder inverts the encoder, a table row fixes the
fields the decoder tests, and the fields of the key word and of the response word. -/

namespace Sys2Proof.Machine

/-! ### The decoder inverts the encoder (R84, R89) -/

/-- The fields of a word whose number is that of an opcode, shifted to its place, and a symbol operand. -/
theorem fields_of_symWord {w : Word} {base s : Nat} (hs : s < 64) (hw : w.toNat = base + 64 * s)
    (hb : base % 4096 = 0) : opField w = base / 4096 ∧ symField w = s ∧ rowColField w = 0 := by
  rw [opField_eq, symField_eq, rowColField_eq]
  omega

/-- The fields of a word whose number is VALUE_AT's opcode and its two coordinates. -/
theorem fields_of_coordWord {w : Word} {row col : Nat} (hr : row < 8) (hc : col < 8)
    (hw : w.toNat = 0x3000 + 8 * row + col) :
    opField w = 3 ∧ symField w = 0 ∧ rowField w = row ∧ colField w = col := by
  rw [opField_eq, symField_eq, rowField_eq, colField_eq]
  omega

theorem decode_encode {i : Instr} (h : i.wellFormed = true) : decode (encode i) = .ok i := by
  have hn := encode_toNat h
  cases i with
  | nop | loadKey | pointerValue | endSession => rfl
  | locate s | enc s | dec s | absorb s =>
    obtain ⟨hop, hsym, hrc⟩ := fields_of_symWord (of_decide_eq_true h) hn rfl
    simp [decode, hop, hsym, hrc]
  | valueAt row col =>
    obtain ⟨hr, hc⟩ := Bool.and_eq_true_iff.1 h
    obtain ⟨hop, hsym, hrow, hcol⟩ :=
      fields_of_coordWord (of_decide_eq_true hr) (of_decide_eq_true hc) hn
    simp [decode, hop, hsym, hrow, hcol]

theorem symFits_symField (w : Word) : symFits (symField w) = true :=
  decide_eq_true (w.extractLsb' 6 6).isLt

theorem coordFits_rowField (w : Word) : coordFits (rowField w) = true :=
  decide_eq_true (w.extractLsb' 3 3).isLt

theorem coordFits_colField (w : Word) : coordFits (colField w) = true :=
  decide_eq_true (w.extractLsb' 0 3).isLt

theorem toNat_of_argField {w : Word} (h : argField w = 0) : w.toNat = 4096 * opField w := by
  rw [argField_eq] at h
  rw [opField_eq]
  omega

theorem toNat_of_rowColField {w : Word} (h : rowColField w = 0) :
    w.toNat = 4096 * opField w + 64 * symField w := by
  rw [rowColField_eq] at h
  rw [opField_eq, symField_eq]
  omega

theorem toNat_of_symField {w : Word} (h : symField w = 0) :
    w.toNat = 4096 * opField w + 8 * rowField w + colField w := by
  rw [symField_eq] at h
  rw [opField_eq, rowField_eq, colField_eq]
  omega

/-- An opcode's arm of the decoder answers an instruction only where the field it tests is 0. -/
theorem of_ite_ok_eq_ok {p : Prop} [Decidable p] {a i : Instr} {why : IllegalWord}
    (h : (if p then .ok a else .error why : Except IllegalWord Instr) = .ok i) : p ∧ a = i := by
  split at h
  next hp => exact ⟨hp, Except.ok.inj h⟩
  next => cases h

/-- The fields the decoder reads are those of a well-formed instruction, and with the field it tests at 0
they make up the whole word. -/
theorem wellFormed_and_encodeNat_of_decode {w : Word} {i : Instr} (h : decode w = .ok i) :
    i.wellFormed = true ∧ encodeNat i = w.toNat := by
  unfold decode at h
  split at h
  case h_1 hop | h_2 hop | h_5 hop | h_9 hop =>
    obtain ⟨harg, rfl⟩ := of_ite_ok_eq_ok h
    exact ⟨rfl, by rw [toNat_of_argField harg, hop]; rfl⟩
  case h_3 hop | h_6 hop | h_7 hop | h_8 hop =>
    obtain ⟨hrc, rfl⟩ := of_ite_ok_eq_ok h
    exact ⟨symFits_symField w, by rw [toNat_of_rowColField hrc, hop]; rfl⟩
  case h_4 hop =>
    obtain ⟨hsym, rfl⟩ := of_ite_ok_eq_ok h
    exact ⟨Bool.and_eq_true_iff.2 ⟨coordFits_rowField w, coordFits_colField w⟩,
      by rw [toNat_of_symField hsym, hop]; rfl⟩
  case h_10 => cases h

theorem encode_of_decode {w : Word} {i : Instr} (h : decode w = .ok i) :
    i.wellFormed = true ∧ encode i = w := by
  obtain ⟨hwf, hn⟩ := wellFormed_and_encodeNat_of_decode h
  exact ⟨hwf, BitVec.eq_of_toNat_eq ((encode_toNat hwf).trans hn)⟩

/-! ### The opcode table (R84) -/

/-- A field that lies under a row's mask holds the row's pattern in every word of the row. -/
theorem extractLsb'_of_masked {w mask pattern : Word} (h : w &&& mask = pattern) {start len : Nat}
    (hm : mask.extractLsb' start len = BitVec.allOnes len) :
    w.extractLsb' start len = pattern.extractLsb' start len := by
  rw [← h, BitVec.extractLsb'_and, hm, BitVec.and_allOnes]

/-- A row whose only operand is a symbol fixes the opcode and CMD[5:0]. -/
theorem fields_of_symMask {w pattern : Word} {op : Nat} (h : w &&& 0xF03F = pattern)
    (hop : opField pattern = op) (hrc : rowColField pattern = 0) : opField w = op ∧ rowColField w = 0 :=
  ⟨(congrArg BitVec.toNat (extractLsb'_of_masked h (start := 12) (len := 4) rfl)).trans hop,
    (congrArg BitVec.toNat (extractLsb'_of_masked h (start := 0) (len := 6) rfl)).trans hrc⟩

/-- VALUE_AT's row fixes the opcode and CMD[11:6]. -/
theorem fields_of_coordMask {w : Word} (h : w &&& 0xFFC0 = 0x3000) : opField w = 3 ∧ symField w = 0 :=
  ⟨congrArg BitVec.toNat (extractLsb'_of_masked h (start := 12) (len := 4) rfl),
    congrArg BitVec.toNat (extractLsb'_of_masked h (start := 6) (len := 6) rfl)⟩

/-- A row with no operand fixes the whole word. -/
theorem eq_of_fullMask {w pattern : Word} (h : w &&& 0xFFFF = pattern) : w = pattern :=
  BitVec.and_allOnes.symm.trans h

theorem decode_of_masked {row : OpcodeRow} (hr : row ∈ opcodeTable) {w : Word}
    (h : w &&& row.mask = row.pattern) : ∃ i, decode w = .ok i ∧ i.mnemonic = row.mnemonic := by
  simp only [opcodeTable, List.mem_cons, List.not_mem_nil, or_false] at hr
  rcases hr with rfl | rfl | rfl | rfl | rfl | rfl | rfl | rfl | rfl
  · exact ⟨.nop, by rw [eq_of_fullMask h]; rfl, rfl⟩
  · exact ⟨.loadKey, by rw [eq_of_fullMask h]; rfl, rfl⟩
  · obtain ⟨hop, hrc⟩ := fields_of_symMask h (op := 2) rfl rfl
    exact ⟨.locate (symField w), by simp [decode, hop, hrc], rfl⟩
  · obtain ⟨hop, hsym⟩ := fields_of_coordMask h
    exact ⟨.valueAt (rowField w) (colField w), by simp [decode, hop, hsym], rfl⟩
  · exact ⟨.pointerValue, by rw [eq_of_fullMask h]; rfl, rfl⟩
  · obtain ⟨hop, hrc⟩ := fields_of_symMask h (op := 5) rfl rfl
    exact ⟨.enc (symField w), by simp [decode, hop, hrc], rfl⟩
  · obtain ⟨hop, hrc⟩ := fields_of_symMask h (op := 6) rfl rfl
    exact ⟨.dec (symField w), by simp [decode, hop, hrc], rfl⟩
  · obtain ⟨hop, hrc⟩ := fields_of_symMask h (op := 7) rfl rfl
    exact ⟨.absorb (symField w), by simp [decode, hop, hrc], rfl⟩
  · exact ⟨.endSession, by rw [eq_of_fullMask h]; rfl, rfl⟩

theorem row_eq_of_masked {r₁ r₂ : OpcodeRow} (h₁ : r₁ ∈ opcodeTable) (h₂ : r₂ ∈ opcodeTable) {w : Word}
    (hw₁ : w &&& r₁.mask = r₁.pattern) (hw₂ : w &&& r₂.mask = r₂.pattern) : r₁ = r₂ := by
  have hcommon : r₁.pattern &&& r₂.mask = r₂.pattern &&& r₁.mask := by
    rw [← hw₁, ← hw₂, BitVec.and_assoc, BitVec.and_assoc, BitVec.and_comm r₁.mask]
  have hdisjoint : ∀ r₁ ∈ opcodeTable, ∀ r₂ ∈ opcodeTable,
      r₁.pattern &&& r₂.mask = r₂.pattern &&& r₁.mask → r₁ = r₂ := by decide
  exact hdisjoint r₁ h₁ r₂ h₂ hcommon

theorem row_eq_of_mnemonic {r₁ r₂ : OpcodeRow} (h₁ : r₁ ∈ opcodeTable) (h₂ : r₂ ∈ opcodeTable)
    (h : r₁.mnemonic = r₂.mnemonic) : r₁ = r₂ := by
  have hdistinct : ∀ r₁ ∈ opcodeTable, ∀ r₂ ∈ opcodeTable, r₁.mnemonic = r₂.mnemonic → r₁ = r₂ := by
    decide
  exact hdistinct r₁ h₁ r₂ h₂ h

theorem encode_spells_row {i : Instr} (h : i.wellFormed = true) :
    ∃ row ∈ opcodeTable, row.mnemonic = i.mnemonic ∧ row.spells (encode i) = true := by
  cases i with
  | nop => exact Laws.WordSpellsRow.nop h
  | loadKey => exact Laws.WordSpellsRow.loadKey h
  | locate s => exact Laws.WordSpellsRow.locate s h
  | valueAt row col => exact Laws.WordSpellsRow.valueAt row col h
  | pointerValue => exact Laws.WordSpellsRow.pointerValue h
  | enc s => exact Laws.WordSpellsRow.enc s h
  | dec s => exact Laws.WordSpellsRow.dec s h
  | absorb s => exact Laws.WordSpellsRow.absorb s h
  | endSession => exact Laws.WordSpellsRow.endSession h

theorem masked_of_decode {row : OpcodeRow} (hr : row ∈ opcodeTable) {w : Word} {i : Instr}
    (hd : decode w = .ok i) (hm : i.mnemonic = row.mnemonic) : w &&& row.mask = row.pattern := by
  obtain ⟨hwf, rfl⟩ := encode_of_decode hd
  obtain ⟨row', hr', hm', hs⟩ := encode_spells_row hwf
  cases row_eq_of_mnemonic hr' hr (hm'.trans hm)
  exact of_decide_eq_true hs

/-- Settles O12: a row's mask covers the opcode and the field the decoder tests, so the two agree; masked by
both rows a common word would make their patterns agree; and each formula is `encode` of its instruction. -/
theorem tableRowsAreTheDecoder : Obligations.TableRowsAreTheDecoder := by
  refine ⟨fun row hr w => ⟨decode_of_masked hr, fun ⟨i, hd, hm⟩ => masked_of_decode hr hd hm⟩,
    fun r₁ h₁ r₂ h₂ w => row_eq_of_masked h₁ h₂, fun s hs => ?_, fun row col hr hc => ?_,
    rfl, rfl, rfl, rfl⟩
  · have hs : symFits s = true := decide_eq_true hs
    exact ⟨decode_encode (i := .locate s) hs, decode_encode (i := .enc s) hs,
      decode_encode (i := .dec s) hs, decode_encode (i := .absorb s) hs⟩
  · exact decode_encode (i := .valueAt row col)
      (Bool.and_eq_true_iff.2 ⟨decide_eq_true hr, decide_eq_true hc⟩)

/-! ### The key word (R85) -/

theorem packKey_eq_ofDigits (ns : List Nat) : packKey ns = Nat.ofDigits 64 ns := by
  induction ns with
  | nil => rfl
  | cons n ns ih => rw [packKey, ih, Nat.ofDigits_cons]

theorem packKey_eq_sum (ns : List Nat) :
    packKey ns = ((List.range ns.length).map fun j => ns.getD j 0 * 2 ^ (6 * j)).sum := by
  induction ns with
  | nil => rfl
  | cons n ns ih =>
    have hshift : ∀ j, (n :: ns).getD (j + 1) 0 * 2 ^ (6 * (j + 1)) =
        64 * (ns.getD j 0 * 2 ^ (6 * j)) := fun j => by
      rw [List.getD_cons_succ]; ring
    rw [packKey, ih, List.length_cons, List.sum_range_succ', ← List.sum_map_mul_left]
    simp only [hshift, List.getD_cons_zero]
    simp

/-- Entry `k` is digit `k` in base 64. -/
theorem packKey_digit {ns : List Nat} (hlt : ∀ n ∈ ns, n < 64) {k : Nat} (hk : k < ns.length) :
    packKey ns / 64 ^ k % 64 = ns[k] := by
  rw [packKey_eq_ofDigits, Nat.ofDigits_div_pow_eq_ofDigits_drop k (by decide) ns hlt,
    List.drop_eq_getElem_cons hk, Nat.ofDigits_cons, Nat.add_mul_mod_self_left]
  exact Nat.mod_eq_of_lt (hlt _ (List.getElem_mem hk))

theorem packKey_lt {ns : List Nat} (hlt : ∀ n ∈ ns, n < 64) (hlen : ns.length = 36) :
    packKey ns < 2 ^ 216 := by
  calc packKey ns = Nat.ofDigits 64 ns := packKey_eq_ofDigits ns
    _ < 64 ^ ns.length := Nat.ofDigits_lt_base_pow_length (by decide) hlt
    _ = 2 ^ 216 := by rw [hlen]; norm_num

/-- Of 36 entries that fit their fields, the key word holds entry `k` at bits `6k+5` to `6k`. -/
theorem keyEntry_ofNat_packKey {ns : List Nat} (hlt : ∀ n ∈ ns, n < 64) (hlen : ns.length = 36) {k : Nat}
    (hk : k < ns.length) : keyEntry (BitVec.ofNat 216 (packKey ns)) k = ns[k] := by
  rw [keyEntry, BitVec.extractLsb'_toNat, BitVec.toNat_ofNat, Nat.mod_eq_of_lt (packKey_lt hlt hlen),
    Nat.shiftRight_eq_div_pow, Nat.pow_mul]
  exact packKey_digit hlt hk

/-- Settles O15: the entries are the digits of the key word in base 64. -/
theorem keyWordCarriesEntries : Obligations.KeyWordCarriesEntries := by
  intro ks k hk hlen
  have hlt : ∀ n ∈ ks.map Fin.val, n < 64 := by
    simp only [List.mem_map]
    rintro _ ⟨v, -, rfl⟩
    omega
  have hlen' : (ks.map Fin.val).length = 36 := by rw [List.length_map, hlen]
  have hentry : keyEntry (keyWordOf ks) k = ks[k].val := by
    rw [keyWordOf, keyEntry_ofNat_packKey hlt hlen' (by rwa [List.length_map]), List.getElem_map]
  refine ⟨hentry, hentry, ?_⟩
  rw [keyWordOf, BitVec.toNat_ofNat, Nat.mod_eq_of_lt (packKey_lt hlt hlen'), packKey_eq_sum, hlen']
  simp only [← List.getD_map, Fin.val_zero]

/-! ### The response word (R86) -/

theorem toNat_append_eq_add {m n : Nat} (x : BitVec m) (y : BitVec n) :
    (x ++ y).toNat = x.toNat * 2 ^ n + y.toNat := by
  rw [BitVec.toNat_append, ← Nat.shiftLeft_add_eq_or_of_lt y.isLt, Nat.shiftLeft_eq]

theorem respWord_toNat (code : Code) (dv : Bool) (dsym : BitVec 6) (drow dcol : BitVec 3) :
    (respWord code dv dsym drow dcol).toNat = code.bits.toNat * 2 ^ 13 + dv.toNat * 2 ^ 12 +
      dsym.toNat * 2 ^ 6 + drow.toNat * 2 ^ 3 + dcol.toNat := by
  simp only [respWord, toNat_append_eq_add, BitVec.toNat_ofBool]
  omega

section
variable (code : Code) (dv : Bool) (dsym : BitVec 6) (drow dcol : BitVec 3)

@[simp] theorem respDcol_respWord : respDcol (respWord code dv dsym drow dcol) = dcol :=
  BitVec.extractLsb'_append_eq_right

@[simp] theorem respDrow_respWord : respDrow (respWord code dv dsym drow dcol) = drow := by
  rw [respDrow, respWord, BitVec.extractLsb'_append_eq_of_le (by decide)]
  exact BitVec.extractLsb'_append_eq_right

@[simp] theorem respDsym_respWord : respDsym (respWord code dv dsym drow dcol) = dsym := by
  rw [respDsym, respWord]
  iterate 2 rw [BitVec.extractLsb'_append_eq_of_le (by decide)]
  exact BitVec.extractLsb'_append_eq_right

@[simp] theorem respDv_respWord : respDv (respWord code dv dsym drow dcol) = BitVec.ofBool dv := by
  rw [respDv, respWord]
  iterate 3 rw [BitVec.extractLsb'_append_eq_of_le (by decide)]
  exact BitVec.extractLsb'_append_eq_right

@[simp] theorem respCode_respWord : respCode (respWord code dv dsym drow dcol) = code.bits := by
  rw [respCode, respWord]
  iterate 4 rw [BitVec.extractLsb'_append_eq_of_le (by decide)]
  exact BitVec.extractLsb'_eq_self

end

/-- A command that answers a next state raised, or its response has code 0. -/
theorem exec_raise_or_respCode_eq_zero {i : Instr} {s t : State} (h : exec i s = .next t) :
    (∃ code, t = s.raise code) ∨ respCode t.resp = 0 := by
  have ho := exec_outcome i s
  rw [h] at ho
  cases ho with
  | notKeyed | badSymbol | badCoord | badEntry | badKey => exact .inl ⟨_, rfl⟩
  | nop | endSession | loadKey | locate | valueAt | pointerValue | enc | dec | absorb =>
    exact .inr (respCode_respWord _ _ _ _ _)

/-- Settles O16: each field of the word is what was put in, and a response with a nonzero code is a raise's,
which puts 0 in the other four. -/
theorem responseWordLayout : Obligations.ResponseWordLayout := by
  refine ⟨fun code dv dsym drow dcol => ⟨respWord_toNat .., respCode_respWord .., respDv_respWord ..,
    respDsym_respWord .., respDrow_respWord .., respDcol_respWord ..⟩, fun i s t h hcode => ?_⟩
  obtain ⟨code, rfl⟩ | h0 := exec_raise_or_respCode_eq_zero h
  · exact ⟨respDv_respWord .., respDsym_respWord .., respDrow_respWord .., respDcol_respWord ..⟩
  · exact absurd h0 hcode

end Sys2Proof.Machine

/-! SUPPORT. The tableau family (40_tableau_ops.md): LOAD_KEY by its key, and what LOCATE, VALUE_AT and
POINTER_VALUE answer. -/

namespace Sys2Proof.Machine

/-! ### The words of an instruction (R84, R89) -/

/-- The words that decode to an instruction are its own word, and none when an operand does not fit. -/
theorem decode_eq_ok_iff {w : Word} {i : Instr} :
    decode w = .ok i ↔ i.wellFormed = true ∧ w = encode i := by
  constructor
  · intro h
    obtain ⟨hwf, he⟩ := encode_of_decode h
    exact ⟨hwf, he.symm⟩
  · rintro ⟨hwf, rfl⟩
    exact decode_encode hwf

/-- An instruction whose operands always fit has exactly one word. -/
theorem decode_eq_ok_iff_of_wellFormed {w : Word} {i : Instr} (h : i.wellFormed = true) :
    decode w = .ok i ↔ w = encode i :=
  decode_eq_ok_iff.trans (and_iff_right h)

/-! ### The response to a query as a number (R86) -/

@[simp] theorem coordBits_toNat (c : Coord) : (coordBits c).toNat = c.val := by
  rw [coordBits, BitVec.toNat_ofNat, Nat.mod_eq_of_lt (by omega)]

@[simp] theorem symBits_toNat (v : Sym) : (symBits v).toNat = v.val := by
  rw [symBits, BitVec.toNat_ofNat, Nat.mod_eq_of_lt (by omega)]

theorem respWord_data_eq_ofNat (ds : BitVec 6) (dr dc : BitVec 3) : respWord .ok true ds dr dc =
    BitVec.ofNat 16 (0x1000 + 2 ^ 6 * ds.toNat + 8 * dr.toNat + dc.toNat) := by
  apply BitVec.eq_of_toNat_eq
  have hcode : Code.ok.bits.toNat = 0 := rfl
  rw [respWord_toNat, BitVec.toNat_ofNat, hcode, Bool.toNat_true]
  omega

/-! ### A query's answer does not depend on the response before it (R60) -/

/-- The commands that write `RESP` and `LAST_CODE` alone. -/
def isQuery : Instr → Bool
  | .nop | .locate _ | .valueAt _ _ | .pointerValue => true
  | .loadKey | .enc _ | .dec _ | .absorb _ | .endSession => false

/-- Each way a query answers a next state is one response. -/
theorem exec_query_eq_respond {i : Instr} (hi : isQuery i = true) {s t : State}
    (h : exec i s = .next t) : ∃ code dv ds dr dc, t = s.respond code dv ds dr dc := by
  have ho := exec_outcome i s
  rw [h] at ho
  cases ho with
  | loadKey | endSession | enc | dec | absorb => subst_vars; cases hi
  | _ => exact ⟨_, _, _, _, _, rfl⟩

/-- A query reads neither field that a response writes, and writes both. -/
theorem exec_query_respond {i : Instr} (hi : isQuery i = true) (s : State) (code : Code) (dv : Bool)
    (ds : BitVec 6) (dr dc : BitVec 3) : exec i (s.respond code dv ds dr dc) = exec i s := by
  cases i with
  | nop | locate | valueAt | pointerValue => rfl
  | loadKey | enc | dec | absorb | endSession => cases hi

theorem exec_query_repeat {i : Instr} (hi : isQuery i = true) {s t : State}
    (h : exec i s = .next t) : exec i t = .next t := by
  obtain ⟨code, dv, ds, dr, dc, rfl⟩ := exec_query_eq_respond hi h
  rw [exec_query_respond hi, h]

/-! ### LOAD_KEY (R111) -/

theorem keyOperand_of_entry_gt {key : KeyWord} (h : ∃ k, k < 36 ∧ 35 < keyEntry key k) :
    keyOperand key = .error (.raise .invalidSymbol) := by
  obtain ⟨k, hk, hgt⟩ := h
  obtain ⟨_, he⟩ | ⟨hle, _⟩ | ⟨hle, _⟩ := keyOperand_cases key
  · exact he
  · exact absurd (hle k hk) (by omega)
  · exact absurd (hle k hk) (by omega)

theorem keyOperand_of_duplicate {key : KeyWord} (hle : ∀ k, k < 36 → keyEntry key k ≤ 35)
    (hdup : ∃ k₁ k₂, k₁ < 36 ∧ k₂ < 36 ∧ k₁ ≠ k₂ ∧ keyEntry key k₁ = keyEntry key k₂) :
    keyOperand key = .error (.raise .invalidKey) := by
  obtain ⟨⟨k, hk, hgt⟩, _⟩ | ⟨_, _, he⟩ | ⟨_, hd, _⟩ := keyOperand_cases key
  · exact absurd (hle k hk) (by omega)
  · exact he
  · obtain ⟨k₁, k₂, h₁, h₂, hne, heq⟩ := hdup
    exact absurd ((keyHasDuplicate_eq_false_iff key).1 hd k₁ k₂ h₁ h₂ heq) hne

theorem keyOperand_of_distinct {key : KeyWord} (hle : ∀ k, k < 36 → keyEntry key k ≤ 35)
    (hinj : ∀ k₁ k₂, k₁ < 36 → k₂ < 36 → keyEntry key k₁ = keyEntry key k₂ → k₁ = k₂) :
    ∃ T, keyOperand key = .ok T ∧ ∀ r c, (valueAt T r c).val = keyEntry key (cellNo r c).val := by
  obtain ⟨⟨k, hk, hgt⟩, _⟩ | ⟨_, hd, _⟩ | ⟨_, _, T, hT, _, hcell⟩ := keyOperand_cases key
  · exact absurd (hle k hk) (by omega)
  · exact absurd (hd.symm.trans ((keyHasDuplicate_eq_false_iff key).2 hinj)) (by decide)
  · exact ⟨T, hT, hcell⟩

/-- Settles O22: the key operand alone decides which of the three ways LOAD_KEY ends, and entry `k` fills
the cell numbered `k`. -/
theorem loadKeyFillsTheTableau : Obligations.LoadKeyFillsTheTableau := by
  refine ⟨fun w => decode_eq_ok_iff_of_wellFormed rfl, fun s key hkey => ?_⟩
  obtain rfl : key = keyEntry s.keyBus := funext hkey
  refine ⟨fun hgt => ?_, fun hle hdup => ?_, fun hle hinj => ?_⟩
  · exact exec_loadKey_of_raise (keyOperand_of_entry_gt hgt)
  · exact exec_loadKey_of_raise (keyOperand_of_duplicate hle hdup)
  · obtain ⟨T, hT, hcell⟩ := keyOperand_of_distinct hle hinj
    refine ⟨T, fun k => ?_, exec_loadKey_of_tableau hT⟩
    exact (hcell (cellRow k) (cellCol k)).trans (by rw [cellNo_cellRow_cellCol])

/-! ### LOCATE (R120) -/

theorem exec_locate_of_gt {s : State} {n : Nat} (hV : s.V = true) (hn : 35 < n) :
    exec (.locate n) s = .next (s.raise .invalidSymbol) := by
  simp only [exec, execLocate, needKeyed_of_valid hV, symOperand_of_gt hn, stop_bind_ok,
    stop_bind_error, finish_raise]

theorem exec_locate_valueAt {s : State} {T : Tableau} (hV : s.V = true) (hS : s.S = some T)
    (hT : Memory.wf T = true) (r c : Coord) : exec (.locate (valueAt T r c).val) s =
      .next (s.respond .ok true 0 (coordBits r) (coordBits c)) := by
  simp only [exec, execLocate, needKeyed_of_valid hV, symOperand_val, hS, readElem_some,
    locate_valueAt hT, stop_bind_ok, stop_pure, finish_ok]

/-- Settles O25: a permutation holds every symbol, at one place, and that is the place `Locate` finds. -/
theorem locateAnswersThePlace : Obligations.LocateAnswersThePlace := by
  refine ⟨fun w n => decode_eq_ok_iff.trans (and_congr_left' decide_eq_true_iff),
    fun s n hV => exec_of_not_valid rfl hV, fun s n hV hn => exec_locate_of_gt hV hn,
    fun s T i j n hlive hT hn => ?_, fun s t n => exec_query_repeat rfl⟩
  obtain ⟨hV, hS, -, -⟩ := hlive
  obtain ⟨r, c, hv⟩ := memory_wf_holds_every_value hT ⟨n, by omega⟩
  obtain rfl : (valueAt T r c).val = n := congrArg Fin.val hv
  refine ⟨r, c, rfl, fun r' c' he => (memory_wf_iff_valueAt T).1 hT r' c' r c (Fin.ext he), ?_⟩
  rw [exec_locate_valueAt hV hS hT, State.respond, respWord_data_eq_ofNat, coordBits_toNat,
    coordBits_toNat]
  rfl

/-! ### VALUE_AT (R125) -/

theorem exec_valueAt_of_gt {s : State} {row col : Nat} (hV : s.V = true) (h : 5 < row ∨ 5 < col) :
    exec (.valueAt row col) s = .next (s.raise .badCoord) := by
  simp only [exec, execValueAt, needKeyed_of_valid hV, coordOperands_of_gt h, stop_bind_ok,
    stop_bind_error, finish_raise]

theorem exec_valueAt_of_le {s : State} {T : Tableau} {row col : Nat} (hV : s.V = true)
    (hS : s.S = some T) (hr : row ≤ 5) (hc : col ≤ 5) : exec (.valueAt row col) s =
      .next (s.respond .ok true (symBits (valueAt T ⟨row, by omega⟩ ⟨col, by omega⟩)) 0 0) := by
  simp only [exec, execValueAt, needKeyed_of_valid hV, coordOperands_of_le hr hc, hS, readElem_some,
    stop_bind_ok, stop_pure, finish_ok]

/-- Settles O26: after the checks of `V` and of the coordinates the response carries the cell alone. -/
theorem valueAtAnswersTheCell : Obligations.ValueAtAnswersTheCell := by
  refine ⟨fun w row col => ?_, fun s row col hV => exec_of_not_valid rfl hV,
    fun s row col hV h => exec_valueAt_of_gt hV h, fun s T i j row col hr hc hlive => ?_,
    fun s t row col => exec_query_repeat rfl⟩
  · rw [decode_eq_ok_iff, Instr.wellFormed, Bool.and_eq_true, and_assoc]
    exact and_congr decide_eq_true_iff (and_congr_left' decide_eq_true_iff)
  · obtain ⟨hV, hS, -, -⟩ := hlive
    rw [exec_valueAt_of_le hV hS hr hc, State.respond, respWord_data_eq_ofNat, symBits_toNat]
    rfl

/-! ### POINTER_VALUE (R130) -/

theorem exec_pointerValue_of_live {s : State} {T : Tableau} {i j : Coord} (h : s.Live T i j) :
    exec .pointerValue s =
      .next (s.respond .ok true (symBits (valueAt T i j)) (coordBits i) (coordBits j)) := by
  obtain ⟨hV, hS, hI, hJ⟩ := h
  simp only [exec, execPointerValue, needKeyed_of_valid hV, readKeyed_eq hS hI hJ, pointerValue,
    stop_bind_ok, stop_pure, finish_ok]

/-- Settles O27: in a live session `S`, `I` and `J` have values, and the response carries all three. -/
theorem pointerValueAnswersThePointedCell : Obligations.PointerValueAnswersThePointedCell := by
  refine ⟨fun w => decode_eq_ok_iff_of_wellFormed rfl, fun s hV => exec_of_not_valid rfl hV,
    fun s T i j hlive => ?_⟩
  rw [exec_pointerValue_of_live hlive, State.respond, respWord_data_eq_ofNat, symBits_toNat,
    coordBits_toNat, coordBits_toNat]

end Sys2Proof.Machine

/-! SUPPORT. The transition family (41_transition.md): what TRANSITION leaves in the tableau and in each
coordinate of the pointer. -/

namespace Sys2Proof.Machine

/-! ### TRANSITION by what it leaves (R141) -/

/-- P1 and P4: P2's column turns in the tableau whose row has turned. -/
theorem transition_S (d : Descriptor) (k : Keyed) :
    (transition d k).S = rotColDown (rotatedColumn d) (rotRowRight d.r k.S) := rfl

/-- `J` after P3 (R143): it goes with the row that P1 turned. -/
def rowFollowedJ (d : Descriptor) (k : Keyed) : Coord := if k.I = d.r then inc6 k.J else k.J

/-- `I` after P5 (R145): it goes with the column that P4 turned, found by `J` after P3. -/
def columnFollowedI (d : Descriptor) (k : Keyed) : Coord :=
  if rowFollowedJ d k = rotatedColumn d then inc6 k.I else k.I

/-- P6 adds to what P5 left (R146). -/
theorem transition_I (d : Descriptor) (k : Keyed) :
    (transition d k).I = columnFollowedI d k + rowOffset d.ct := add6_eq _ _

/-- P7 adds to what P3 left (R146). -/
theorem transition_J (d : Descriptor) (k : Keyed) :
    (transition d k).J = rowFollowedJ d k + colOffset d.ct := add6_eq _ _

/-- Settles O31: the tableau takes P1 and P4, `J` takes P3 and P7, and `I` takes P5 and P6; each of the
intermediate results is the one the statement names. -/
theorem transitionRunsSevenSubSteps : Obligations.TransitionRunsSevenSubSteps := by
  intro d k s1 yr j3 i5 hs1 hyr hj3 hi5
  have hrow : ∀ a c, valueAt (rotRowRight d.r k.S) a c = s1 a c := fun a c =>
    (valueAt_rotRowRight d.r k.S a c).trans (hs1 a c).symm
  have hcol : rotatedColumn d = yr := (rotatedColumn_eq d).trans hyr.symm
  have hJ : rowFollowedJ d k = j3 := by rw [rowFollowedJ, inc6_eq, hj3]
  have hI : columnFollowedI d k = i5 := by rw [columnFollowedI, hJ, hcol, inc6_eq, hi5]
  refine ⟨hcol, fun a c => ?_, ?_, ?_⟩
  · rw [transition_S, hcol, valueAt_rotColDown, hrow, hrow]
  · rw [transition_I, hI, Fin.val_add, rowOffset]
  · rw [transition_J, hJ, Fin.val_add, colOffset]

end Sys2Proof.Machine

/-! SUPPORT. The step family (42_encrypt_decrypt.md): the state that ENC, DEC and ABSORB leave when they raise
and when their step succeeds. -/

namespace Sys2Proof.Machine

/-! ### What a step command writes (R31, R86) -/

/-- R141's results and the seven snapshot registers are all that a step writes before its response. -/
theorem State.commitStep_eq (s : State) (kind : SnapKind) (k : Keyed) (e : StepValues) :
    s.commitStep kind k e =
      { s with
        S := some (transition e.d k).S, I := some (transition e.d k).I, J := some (transition e.d k).J,
        snap := ⟨kind, e.d.r, e.d.x, e.d.y, if e.d.x = e.d.r then e.d.y + 1 else e.d.y, e.pt, e.d.ct⟩ } := by
  rw [State.commitStep, rotatedColumn_eq, State.writeKeyed, State.writeSnap]

/-- The response that carries a symbol alone. -/
theorem respWord_sym_eq_ofNat (v : Sym) :
    respWord .ok true (symBits v) 0 0 = BitVec.ofNat 16 (0x1000 + 2 ^ 6 * v.val) := by
  rw [respWord_data_eq_ofNat, symBits_toNat]
  rfl

/-! ### A symbol operand above 35 (R222) -/

/-- A computation that checks `V` and then a symbol operand raises INVALID_SYMBOL above 35, whatever
follows. -/
theorem finish_symOperand_of_gt {s : State} {n : Nat} (hV : s.V = true) (hn : 35 < n)
    (rest : Sym → Except Stop State) :
    finish s (needKeyed s >>= fun _ => symOperand n >>= rest) = .next (s.raise .invalidSymbol) := by
  rw [needKeyed_of_valid hV, stop_bind_ok, symOperand_of_gt hn, stop_bind_error, finish_raise]

theorem exec_of_symbol_gt {i : Instr} {s : State} {n : Nat} (hi : symbolOf i = some n)
    (hV : s.V = true) (hn : 35 < n) : exec i s = .next (s.raise .invalidSymbol) := by
  cases i with
  | nop | loadKey | valueAt | pointerValue | endSession => cases hi
  | locate | enc | dec | absorb =>
    cases hi
    exact finish_symOperand_of_gt hV hn _

/-! ### A step that succeeds (R161, R171, R181) -/

/-- A permutation holds every index an operand may name. -/
theorem exists_place_of_le {T : Tableau} {n : Nat} (hT : Memory.wf T = true) (hn : n ≤ 35) :
    ∃ r c, (valueAt T r c).val = n := by
  obtain ⟨r, c, hv⟩ := memory_wf_holds_every_value hT ⟨n, by omega⟩
  exact ⟨r, c, congrArg Fin.val hv⟩

section
variable {s : State} {T : Tableau} {i j : Coord} {v : Sym} {e : StepValues}

/-- In a live session the checks pass and the reads answer, so only the step itself can still stop. -/
theorem finish_symOperand_of_live (h : s.Live T i j) (rest : Sym → Keyed → Except Stop State) :
    finish s (needKeyed s >>= fun _ => symOperand v.val >>= fun u => readKeyed s >>= rest u) =
      finish s (rest v ⟨T, i, j⟩) := by
  obtain ⟨hV, hS, hI, hJ⟩ := h
  rw [needKeyed_of_valid hV, stop_bind_ok, symOperand_val, stop_bind_ok, readKeyed_eq hS hI hJ,
    stop_bind_ok]

theorem exec_enc_of_step (h : s.Live T i j) (he : encryptStep ⟨T, i, j⟩ v = .ok e) :
    exec (.enc v.val) s =
      .next ((s.commitStep .enc ⟨T, i, j⟩ e).respond .ok true (symBits e.d.ct) 0 0) := by
  refine (finish_symOperand_of_live h _).trans ?_
  rw [he, stop_bind_ok, stop_pure, finish_ok]

theorem exec_dec_of_step (h : s.Live T i j) (he : decryptStep ⟨T, i, j⟩ v = .ok e) :
    exec (.dec v.val) s =
      .next ((s.commitStep .dec ⟨T, i, j⟩ e).respond .ok true (symBits e.pt) 0 0) := by
  refine (finish_symOperand_of_live h _).trans ?_
  rw [he, stop_bind_ok, stop_pure, finish_ok]

theorem exec_absorb_of_step (h : s.Live T i j) (he : encryptStep ⟨T, i, j⟩ v = .ok e) :
    exec (.absorb v.val) s =
      .next ((s.commitStep .absorb ⟨T, i, j⟩ e).respond .ok false 0 0 0) := by
  refine (finish_symOperand_of_live h _).trans ?_
  rw [he, stop_bind_ok, stop_pure, finish_ok]

end

/-! ### The step commands (R161, R171, R181) -/

/-- Settles O36: the permutation holds the plaintext at some `(r, c)`, which is the place `Locate` finds,
and every other value of the step is computed from it. -/
theorem encRunsOneTransition : Obligations.EncRunsOneTransition := by
  refine ⟨fun w n => decode_eq_ok_iff.trans (and_congr_left' decide_eq_true_iff),
    fun s n hV => exec_of_not_valid rfl hV, fun s n hV hn => exec_of_symbol_gt rfl hV hn,
    fun s T i j n hlive hT hn => ?_⟩
  obtain ⟨r, c, rfl⟩ := exists_place_of_le hT hn
  refine ⟨r, c, _, _, _, _, _, _, _, rfl, rfl, rfl, rfl, rfl, rfl, rfl, rfl, ?_⟩
  rw [exec_enc_of_step hlive (encryptStep_valueAt hT r c), State.commitStep_eq, State.respond,
    respWord_sym_eq_ofNat]
  rfl

/-- Settles O37: as ENC, but from the place `(x, y)` of the ciphertext back to `(r, c)`. -/
theorem decRunsOneTransition : Obligations.DecRunsOneTransition := by
  refine ⟨fun w n => decode_eq_ok_iff.trans (and_congr_left' decide_eq_true_iff),
    fun s n hV => exec_of_not_valid rfl hV, fun s n hV hn => exec_of_symbol_gt rfl hV hn,
    fun s T i j n hlive hT hn => ?_⟩
  obtain ⟨x, y, rfl⟩ := exists_place_of_le hT hn
  refine ⟨_, _, x, y, _, _, _, _, _, rfl, rfl, rfl, rfl, rfl, rfl, rfl, rfl, ?_⟩
  rw [exec_dec_of_step hlive (decryptStep_valueAt hT x y), State.commitStep_eq, State.respond,
    respWord_sym_eq_ofNat]
  rfl

/-- Settles O38: ENC's step with `SNAP_KIND` 1 and an empty response. -/
theorem absorbRunsOneTransition : Obligations.AbsorbRunsOneTransition := by
  refine ⟨fun w n => decode_eq_ok_iff.trans (and_congr_left' decide_eq_true_iff),
    fun s n hV => exec_of_not_valid rfl hV, fun s n hV hn => exec_of_symbol_gt rfl hV hn,
    fun s T i j n hlive hT hn => ?_⟩
  obtain ⟨r, c, rfl⟩ := exists_place_of_le hT hn
  refine ⟨r, c, _, _, _, _, _, _, _, rfl, rfl, rfl, rfl, rfl, rfl, rfl, rfl, ?_⟩
  rw [exec_absorb_of_step hlive (encryptStep_valueAt hT r c), State.commitStep_eq, State.respond]
  rfl

end Sys2Proof.Machine

/-! SUPPORT. The session family (43_session_and_host.md): the state that NOP and END_SESSION leave, which
are the two commands that make no check. -/

namespace Sys2Proof.Machine

/-! ### The response that carries nothing (R86) -/

theorem respWord_ok_empty : respWord .ok false 0 0 0 = 0x0000 := by decide

/-- A command that completes without data clears `RESP` and `LAST_CODE` (R13). -/
theorem State.respond_ok_empty (s : State) :
    s.respond .ok false 0 0 0 = { s with resp := 0x0000, lastCode := .ok } := by
  rw [State.respond, respWord_ok_empty]

/-! ### NOP (R190) -/

theorem exec_nop_eq (s : State) : exec .nop s = .next { s with resp := 0x0000, lastCode := .ok } :=
  congrArg Host.Outcome.next s.respond_ok_empty

/-- Settles O19: NOP has one word, and all it does is answer the empty response. -/
theorem nopClearsTheResponse : Obligations.NopClearsTheResponse :=
  ⟨fun _ => decode_eq_ok_iff_of_wellFormed rfl, exec_nop_eq⟩

/-! ### END_SESSION (R193) -/

/-- R193's effect needs no session: it is the same whatever `V` is. -/
theorem exec_endSession_eq (s : State) :
    exec .endSession s = .next
      { s with S := none, I := none, J := none, V := false, snap := Snap.cleared,
               resp := 0x0000, lastCode := .ok } :=
  congrArg Host.Outcome.next (State.respond_ok_empty _)

/-- Settles O20: the tableau commands fail after END_SESSION because it leaves `V = 0`. -/
theorem endSessionDiscardsTheTableau : Obligations.EndSessionDiscardsTheTableau :=
  ⟨fun _ => decode_eq_ok_iff_of_wellFormed rfl, exec_endSession_eq,
    fun _ _ _ hend hi => exec_of_not_valid hi (exec_endSession_V hend)⟩

end Sys2Proof.Machine

/-! SUPPORT. The exceptions family (60_exceptions.md): the cause of each error code, and the one state an
error leaves. -/

namespace Sys2Proof.Machine

/-! ### The state an error leaves (R220, R229) -/

/-- An error's response is its code at bit 13 (R86). -/
theorem respWord_raise_eq_ofNat (code : Code) :
    respWord code false 0 0 0 = BitVec.ofNat 16 (0x2000 * code.bits.toNat) := by
  cases code <;> rfl

theorem State.raise_eq (s : State) (code : Code) : s.raise code =
    { s with resp := BitVec.ofNat 16 (0x2000 * code.bits.toNat), lastCode := code } := by
  rw [State.raise, State.respond, respWord_raise_eq_ofNat]

/-! ### The cause of each error (R221, R222, R223, R225) -/

theorem keyHasDuplicate_eq_true_iff (key : KeyWord) : keyHasDuplicate key = true ↔
    ∃ k₁ k₂, k₁ < 36 ∧ k₂ < 36 ∧ k₁ ≠ k₂ ∧ keyEntry key k₁ = keyEntry key k₂ := by
  rw [← Bool.not_eq_false, keyHasDuplicate_eq_false_iff]
  push Not
  simp only [and_comm (a := keyEntry key _ = _)]

/-- What a command must meet to raise a code. No command raises OK, and none that decodes raises
ILLEGAL_COMMAND (R224). -/
def RaiseCause (i : Instr) (s : State) : Code → Prop
  | .ok => False
  | .invalidKey => i = .loadKey ∧ (∀ k, k < 36 → keyEntry s.keyBus k ≤ 35) ∧
      ∃ k₁ k₂, k₁ < 36 ∧ k₂ < 36 ∧ k₁ ≠ k₂ ∧ keyEntry s.keyBus k₁ = keyEntry s.keyBus k₂
  | .invalidSymbol => (i = .loadKey ∧ ∃ k, k < 36 ∧ 35 < keyEntry s.keyBus k) ∨
      (s.V = true ∧ ∃ n, symbolOf i = some n ∧ 35 < n)
  | .notKeyed => needsTableau i = true ∧ s.V = false
  | .illegalCommand => False
  | .badCoord => s.V = true ∧ ∃ row col, i = .valueAt row col ∧ (5 < row ∨ 5 < col)

/-- A command that answers a code other than OK raised it, and met its cause. -/
theorem exec_raise_of_lastCode {i : Instr} {s t : State} {code : Code} (h : exec i s = .next t)
    (hcode : t.lastCode = code) (hne : code ≠ .ok) : t = s.raise code ∧ RaiseCause i s code := by
  have ho := exec_outcome i s
  rw [h] at ho
  subst hcode
  cases ho with
  | notKeyed hi hV => exact ⟨rfl, hi, hV⟩
  | badSymbol n hV hi hn => exact ⟨rfl, .inr ⟨hV, n, hi, hn⟩⟩
  | badCoord row col hV hi hgt => exact ⟨rfl, hV, row, col, hi, hgt⟩
  | badEntry hi hgt => exact ⟨rfl, .inl ⟨hi, hgt⟩⟩
  | badKey hi hle hd => exact ⟨rfl, hi, hle, (keyHasDuplicate_eq_true_iff _).1 hd⟩
  | nop | endSession | loadKey | locate | valueAt | pointerValue | enc | dec | absorb =>
    exact absurd rfl hne

/-- Settles O42: each cause stops its command at the check that raises the code, and a code other than OK
is left by a raise alone. -/
theorem errorsHaveTheirCauses : Obligations.ErrorsHaveTheirCauses := by
  refine ⟨fun i s hi hV => exec_of_not_valid hi hV, fun i s n hV hi hn => exec_of_symbol_gt hi hV hn,
    fun s row col hV hgt => exec_valueAt_of_gt hV hgt,
    fun s hgt => exec_loadKey_of_raise (keyOperand_of_entry_gt hgt),
    fun s hle hdup => exec_loadKey_of_raise (keyOperand_of_duplicate hle hdup), fun i s t h => ?_⟩
  have cause {code : Code} (hcode : t.lastCode = code) (hne : code ≠ .ok) : RaiseCause i s code :=
    (exec_raise_of_lastCode h hcode hne).2
  exact ⟨fun hc => cause hc (by decide), fun hc => cause hc (by decide), fun hc => cause hc (by decide),
    fun hc => cause hc (by decide), fun hc => cause hc (by decide)⟩

/-- Settles O43: every response that is not OK is a raise's. -/
theorem errorsChangeNothingElse : Obligations.ErrorsChangeNothingElse := by
  intro i s t h hne
  calc t = s.raise t.lastCode := (exec_raise_of_lastCode h rfl hne).1
    _ = _ := s.raise_eq t.lastCode

end Sys2Proof.Machine

/-! SUPPORT. The legal words and the assembler (30_encoding.md sections 5 and 6): which words decode, how
many, and what a line of assembler text gives. -/

namespace Sys2Proof.Machine

/-! ### The encoder and the decoder (R84, R89) -/

/-- Settles O10: the decoder reads the operands back from the fields that the encoder put them in. -/
theorem decodeOfEncode : Obligations.DecodeOfEncode := fun _ => decode_encode

/-- Settles O11: the fields read, with the tested one at 0, make up the whole word. -/
theorem encodeOfDecode : Obligations.EncodeOfDecode := fun _ _ => encode_of_decode

/-- Settles O14, by decoding the seven words. -/
theorem sampleWordsDecode : Obligations.SampleWordsDecode :=
  ⟨rfl, rfl, rfl, rfl, rfl, rfl, rfl⟩

/-! ### Legal words (R84, R90) -/

theorem decode_ok_iff_exists_row {w : Word} :
    (∃ i, decode w = .ok i) ↔ ∃ row ∈ opcodeTable, w &&& row.mask = row.pattern := by
  constructor
  · rintro ⟨i, hd⟩
    obtain ⟨hwf, rfl⟩ := encode_of_decode hd
    obtain ⟨row, hr, -, hs⟩ := encode_spells_row hwf
    exact ⟨row, hr, of_decide_eq_true hs⟩
  · rintro ⟨row, hr, h⟩
    obtain ⟨i, hd, -⟩ := decode_of_masked hr h
    exact ⟨i, hd⟩

theorem decode_error_iff_no_row {w : Word} :
    (∃ why, decode w = .error why) ↔ ∀ row ∈ opcodeTable, w &&& row.mask ≠ row.pattern := by
  have hdecode : (∃ why, decode w = .error why) ↔ ¬ ∃ i, decode w = .ok i := by
    cases decode w <;> simp
  rw [hdecode, decode_ok_iff_exists_row]
  push Not
  rfl

/-- The well-formed instructions in the order of their words: R90's 4, 4·64 and 64. -/
def legalInstrs : List Instr :=
  [[.nop, .loadKey], (List.range 64).map .locate,
    (List.range 8).flatMap fun row => (List.range 8).map (.valueAt row), [.pointerValue],
    (List.range 64).map .enc, (List.range 64).map .dec, (List.range 64).map .absorb, [.endSession]].flatten

theorem mem_legalInstrs {i : Instr} : i ∈ legalInstrs ↔ i.wellFormed = true := by
  cases i <;> simp [legalInstrs, Instr.wellFormed, symFits, coordFits]

theorem legalInstrs_length : legalInstrs.length = 324 := by
  simp [legalInstrs]

theorem legalInstrs_sorted : (legalInstrs.map encodeNat).Pairwise (· < ·) :=
  List.isChain_iff_pairwise.1 (by decide +kernel)

theorem legalInstrs_nodup : legalInstrs.Nodup :=
  List.Nodup.of_map encodeNat (legalInstrs_sorted.imp Nat.ne_of_lt)

/-- Settles O13: the legal words are those of the 324 well-formed instructions, no two of which share a
word, since decoding it gives the instruction back. -/
theorem threeHundredTwentyFourLegalWords : Obligations.ThreeHundredTwentyFourLegalWords := by
  refine ⟨legalInstrs.map encode, ?_, by rw [List.length_map, legalInstrs_length], fun w => ?_⟩
  · refine legalInstrs_nodup.map_on fun i hi j hj he => ?_
    have hd := congrArg decode he
    rw [decode_encode (mem_legalInstrs.1 hi), decode_encode (mem_legalInstrs.1 hj)] at hd
    exact Except.ok.inj hd
  · simp only [List.mem_map, mem_legalInstrs, decode_eq_ok_iff, eq_comm (a := w)]

/-! ### Computations that stop at their first error -/

section
variable {ε α β : Type}

@[simp] theorem ok_bind (a : α) (f : α → Except ε β) : ((.ok a : Except ε α) >>= f) = f a := rfl

@[simp] theorem error_bind (e : ε) (f : α → Except ε β) :
    ((.error e : Except ε α) >>= f) = .error e := rfl

@[simp] theorem pure_eq_ok (a : α) : (pure a : Except ε α) = .ok a := rfl

theorem bind_eq_ok_iff {x : Except ε α} {f : α → Except ε β} {b : β} :
    (x >>= f) = .ok b ↔ ∃ a, x = .ok a ∧ f a = .ok b := by
  cases x <;> simp

end

/-! ### The assembler (R93) -/

section
variable {caseFold : Bool} {a : Alphabet}

theorem asmIndex_index_eq_ok_iff {n m : Nat} :
    asmIndex caseFold a (.index n) = .ok m ↔ n < 64 ∧ m = n := by
  by_cases hn : n < 64 <;> simp [asmIndex, hn, eq_comm]

theorem asmIndex_literal_eq_ok_iff {ch : Char} {m : Nat} : asmIndex caseFold a (.literal ch) = .ok m ↔
    ∃ v, toIndex caseFold a ch = .ok v ∧ m = v.val := by
  cases hi : toIndex caseFold a ch <;> simp [asmIndex, hi, eq_comm]

theorem toIndex_of_not_mem {ch : Char} (h : foldCase caseFold ch ∉ a.toList) :
    toIndex caseFold a ch = .error .invalidSymbol := by
  obtain ⟨v, -, hv⟩ | ⟨hi, -⟩ := toIndex_cases caseFold a ch
  · exact absurd (hv ▸ toSymbol_mem a v) h
  · exact hi

theorem asmIndex_literal_of_not_mem {ch : Char} (h : foldCase caseFold ch ∉ a.toList) :
    asmIndex caseFold a (.literal ch) = .error .invalidSymbol := by
  simp only [asmIndex, toIndex_of_not_mem h]

theorem asmIndex_lt {o : SymOperand} {n : Nat} (h : asmIndex caseFold a o = .ok n) : n < 64 := by
  cases o with
  | index m =>
    obtain ⟨hm, rfl⟩ := asmIndex_index_eq_ok_iff.1 h
    exact hm
  | literal ch =>
    obtain ⟨v, -, rfl⟩ := asmIndex_literal_eq_ok_iff.1 h
    omega

theorem asmIndices_eq_ok_iff {entries : List SymOperand} {ns : List Nat} :
    asmIndices caseFold a entries = .ok ns ↔
      List.Forall₂ (fun o n => asmIndex caseFold a o = .ok n) entries ns := by
  induction entries generalizing ns with
  | nil => simp [asmIndices, eq_comm]
  | cons o entries ih =>
    simp only [asmIndices, bind_eq_ok_iff, pure_eq_ok, ih, List.forall₂_cons_left_iff, Except.ok.injEq]
    constructor
    · rintro ⟨n, hn, ms, hms, rfl⟩
      exact ⟨n, ms, hn, hms, rfl⟩
    · rintro ⟨n, ms, hn, hms, rfl⟩
      exact ⟨n, hn, ms, hms, rfl⟩

theorem asmIndices_lt {entries : List SymOperand} {ns : List Nat}
    (h : List.Forall₂ (fun o n => asmIndex caseFold a o = .ok n) entries ns) : ∀ n ∈ ns, n < 64 := by
  induction h with
  | nil => simp
  | cons hn _ ih => exact List.forall_mem_cons.2 ⟨asmIndex_lt hn, ih⟩

theorem asmIndex_of_mem {entries : List SymOperand} {ns : List Nat}
    (h : List.Forall₂ (fun o n => asmIndex caseFold a o = .ok n) entries ns) :
    ∀ o ∈ entries, ∃ n, asmIndex caseFold a o = .ok n := by
  induction h with
  | nil => simp
  | cons hn _ ih => exact List.forall_mem_cons.2 ⟨⟨_, hn⟩, ih⟩

/-- LOAD_KEY's line gives a word exactly when its operands are 36 indices. -/
theorem assemble_loadKey_eq_ok_iff {entries : List SymOperand} {r : Assembled} :
    assemble caseFold a (.loadKey entries) = .ok r ↔
      ∃ ns, asmIndices caseFold a entries = .ok ns ∧ ns.length = 36 ∧
        r = ⟨.loadKey, encode .loadKey, some (BitVec.ofNat 216 (packKey ns))⟩ := by
  simp only [assemble, bind_eq_ok_iff]
  refine exists_congr fun ns => and_congr_right fun _ => ?_
  split <;> simp [*, eq_comm]

/-- Every line that gives a word gives that of a well-formed instruction. -/
theorem assemble_word {l : AsmLine} {r : Assembled} (h : assemble caseFold a l = .ok r) :
    r.word = encode r.instr ∧ r.instr.wellFormed = true := by
  cases l with
  | nop | pointerValue | endSession =>
    cases h
    exact ⟨rfl, rfl⟩
  | loadKey entries =>
    obtain ⟨ns, -, -, rfl⟩ := assemble_loadKey_eq_ok_iff.1 h
    exact ⟨rfl, rfl⟩
  | valueAt row col =>
    simp only [assemble] at h
    split at h
    next hfit =>
      cases h
      exact ⟨rfl, Bool.and_eq_true_iff.2 ⟨decide_eq_true hfit.1, decide_eq_true hfit.2⟩⟩
    next => cases h
  | locate o | enc o | dec o | absorb o =>
    obtain ⟨n, hn, hr⟩ := bind_eq_ok_iff.1 h
    cases hr
    exact ⟨rfl, decide_eq_true (asmIndex_lt hn)⟩

end

/-- Settles O58: a `<sym>` operand is used through its index alone; LOAD_KEY's operands are its list of
indices, packed as R85 packs a key. -/
theorem assembledWordDecodes : Obligations.AssembledWordDecodes := by
  intro caseFold a
  refine ⟨fun n m => asmIndex_index_eq_ok_iff, fun ch m => asmIndex_literal_eq_ok_iff,
    fun ch => asmIndex_literal_of_not_mem, rfl, rfl, rfl, fun o n hn => ?_, fun o e he => ?_,
    fun row col hr hc => if_pos ⟨hr, hc⟩, fun row col h => if_neg (by omega),
    fun entries ns hns => ⟨fun hlen => ?_, fun hlen => ?_⟩, fun entries o ho hbad r hr => ?_,
    fun l r h => ?_⟩
  · refine ⟨asmIndex_lt hn, ?_, ?_, ?_, ?_⟩ <;>
    · rw [assemble, hn]; rfl
  · refine ⟨?_, ?_, ?_, ?_⟩ <;>
    · rw [assemble, he]; rfl
  · exact ⟨_, assemble_loadKey_eq_ok_iff.2 ⟨ns, asmIndices_eq_ok_iff.2 hns, hlen, rfl⟩,
      fun k hk => keyEntry_ofNat_packKey (asmIndices_lt hns) hlen hk⟩
  · simp only [assemble, asmIndices_eq_ok_iff.2 hns, ok_bind, if_neg hlen]
  · obtain ⟨ns, hns, -, -⟩ := assemble_loadKey_eq_ok_iff.1 hr
    obtain ⟨n, hn⟩ := asmIndex_of_mem (asmIndices_eq_ok_iff.1 hns) o ho
    exact hbad n hn
  · obtain ⟨hword, hwf⟩ := assemble_word h
    exact ⟨hword, by rw [hword, decode_encode hwf]⟩

end Sys2Proof.Machine

/-! SUPPORT. The step: what it does with each pending event, what each way a command ends leaves of the
invariant, and that from a state that meets it no step stops. -/

namespace Sys2Proof.Machine

/-! ### A step by its pending event (R63, R80, R89, R250) -/

theorem step_of_idle {s : State} (h : s.inputs = []) : step s = .next s := by
  simp only [step, fetch_nil h, idleStep]

theorem step_of_rst {s : State} {rest : List HostEvent} (h : s.inputs = .rst :: rest) :
    step s = .next { s with inputs := rest }.resetBlock := by
  simp only [step, fetch_rst h, resetStep]

theorem step_of_command {s : State} {cmd : Word} {key : KeyWord} {rest : List HostEvent} {i : Instr}
    (h : s.inputs = .command cmd key :: rest) (hd : decode cmd = .ok i) :
    step s = exec i (s.accept key rest) := by
  simp only [step, fetch_command h, hd]

theorem step_of_illegal {s : State} {cmd : Word} {key : KeyWord} {rest : List HostEvent}
    {why : IllegalWord} (h : s.inputs = .command cmd key :: rest) (hd : decode cmd = .error why) :
    step s = .next ((s.accept key rest).raise .illegalCommand) := by
  simp only [step, fetch_command h, hd, illegalStep]

/-- A property of outcomes holds of every step if it holds of each of the four kinds of event. -/
theorem step_induction {P : Host.Outcome State Fault Refusal → Prop} (s : State) (hidle : P (.next s))
    (hrst : ∀ rest, P (.next { s with inputs := rest }.resetBlock))
    (hexec : ∀ i key rest, P (exec i (s.accept key rest)))
    (hillegal : ∀ key rest, P (.next ((s.accept key rest).raise .illegalCommand))) : P (step s) := by
  match h : s.inputs with
  | [] => rw [step_of_idle h]; exact hidle
  | .rst :: rest => rw [step_of_rst h]; exact hrst rest
  | .command cmd key :: rest =>
    match hd : decode cmd with
    | .ok i => rw [step_of_command h hd]; exact hexec i key rest
    | .error why => rw [step_of_illegal h hd]; exact hillegal key rest

/-! ### The session's part of the invariant (R23, R25, R27) -/

theorem State.sessionOk_iff (s : State) : s.sessionOk = true ↔
    (∃ T i j, s.Live T i j ∧ Memory.wf T = true) ∨
      (s.V = false ∧ s.S = none ∧ s.I = none ∧ s.J = none) := by
  unfold State.sessionOk State.Live
  cases s.V <;> cases s.S <;> cases s.I <;> cases s.J <;> simp

theorem State.Inv.exists_live {s : State} (h : s.Inv) (hV : s.V = true) :
    ∃ T i j, s.Live T i j ∧ Memory.wf T = true := by
  obtain hlive | ⟨hV', -⟩ := s.sessionOk_iff.1 h.1
  · exact hlive
  · exact absurd (hV.symm.trans hV') (by decide)

theorem transition_keeps_wf (d : Descriptor) {k : Keyed} (h : Memory.wf k.S = true) :
    Memory.wf (transition d k).S = true := by
  rw [transition_S]
  exact rotColDown_keeps_wf _ (rotRowRight_keeps_wf _ h)

/-- The keyed part of a live session is all that a command reads. -/
theorem live_of_readKeyed {s : State} {k : Keyed} (hV : s.V = true) (hk : readKeyed s = .ok k) :
    s.Live k.S k.I k.J := by
  obtain ⟨k', hS, hI, hJ, hk'⟩ | ⟨-, hk'⟩ := readKeyed_cases s
  · obtain rfl := Except.ok.inj (hk.symm.trans hk')
    exact ⟨hV, hS, hI, hJ⟩
  · cases hk.symm.trans hk'

theorem wf_of_readKeyed {s : State} {k : Keyed} (hs : s.sessionOk = true) (hV : s.V = true)
    (hk : readKeyed s = .ok k) : Memory.wf k.S = true := by
  obtain ⟨-, hS, hI, hJ⟩ := live_of_readKeyed hV hk
  simpa only [State.sessionOk, hV, hS, hI, hJ] using hs

theorem State.sessionOk_commitStep {s : State} {kind : SnapKind} {k : Keyed} (e : StepValues)
    (hV : s.V = true) (hw : Memory.wf k.S = true) : (s.commitStep kind k e).sessionOk = true :=
  (State.sessionOk_iff _).2 (.inl ⟨_, _, _, ⟨hV, rfl, rfl, rfl⟩, transition_keeps_wf e.d hw⟩)

/-! ### The snapshot's part (R31, R32) -/

theorem State.snapOk_of_cleared {s : State} (h : s.snap = Snap.cleared) : s.snapOk = true := by
  simp [State.snapOk, h, Snap.cleared]

theorem State.snapOk_commitStep {s : State} {kind : SnapKind} (k : Keyed) (e : StepValues)
    (hV : s.V = true) (hk : kind ≠ .noStep) : (s.commitStep kind k e).snapOk = true := by
  simp [State.snapOk, hV, hk, rotatedColumn]

/-! ### The response's part (R28, R29, R86) -/

/-- A response without data is its code and 0 elsewhere. -/
theorem State.respOk_respond_empty (s : State) (code : Code) :
    (s.respond code false 0 0 0).respOk = true := by
  have hfields : (respWord code false 0 0 0).extractLsb' 0 13 = 0 := by cases code <;> decide
  have hdata : (respWord code false 0 0 0).extractLsb' 0 12 = 0 := by cases code <;> decide
  simp only [State.respOk, State.respond_resp, State.respond_lastCode, respCode_respWord, hfields, hdata,
    decide_true, Bool.or_true, Bool.and_true]

theorem State.respOk_respond_data (s : State) (ds : BitVec 6) (dr dc : BitVec 3) :
    (s.respond .ok true ds dr dc).respOk = true := by
  simp [State.respOk]

theorem State.inv_commitStep_respond {s : State} {kind : SnapKind} {k : Keyed} (e : StepValues)
    {code : Code} {dv : Bool} {ds : BitVec 6} {dr dc : BitVec 3} (hs : s.sessionOk = true)
    (hV : s.V = true) (hk : readKeyed s = .ok k) (hkind : kind ≠ .noStep)
    (hresp : ((s.commitStep kind k e).respond code dv ds dr dc).respOk = true) :
    ((s.commitStep kind k e).respond code dv ds dr dc).Inv :=
  ⟨State.sessionOk_commitStep (kind := kind) e hV (wf_of_readKeyed hs hV hk),
    State.snapOk_commitStep k e hV hkind, hresp⟩

/-! ### Every command keeps the invariant -/

theorem exec_keeps_inv {i : Instr} {s t : State} (hs : s.Inv) (h : exec i s = .next t) : t.Inv := by
  have ho := exec_outcome i s
  rw [h] at ho
  obtain ⟨hsession, hsnap, -⟩ := hs
  cases ho with
  | notKeyed | badSymbol | badCoord | badEntry | badKey | nop =>
    exact ⟨hsession, hsnap, State.respOk_respond_empty _ _⟩
  | locate | valueAt | pointerValue =>
    exact ⟨hsession, hsnap, State.respOk_respond_data _ _ _ _⟩
  | endSession =>
    exact ⟨rfl, State.snapOk_of_cleared rfl, State.respOk_respond_empty _ _⟩
  | loadKey T hi ht hw =>
    exact ⟨hw, State.snapOk_of_cleared rfl, State.respOk_respond_empty _ _⟩
  | enc pt k e hi hV hk | dec ct k e hi hV hk =>
    exact State.inv_commitStep_respond e hsession hV hk (by decide) (State.respOk_respond_data _ _ _ _)
  | absorb pt k e hi hV hk =>
    exact State.inv_commitStep_respond e hsession hV hk (by decide) (State.respOk_respond_empty _ _)

theorem exec_completes {i : Instr} {s : State} (hs : s.Inv) : Completes (exec i s) := by
  have ho := exec_outcome i s
  generalize exec i s = o at ho
  cases ho with
  | bottomRead hV h =>
    obtain ⟨T, i, j, ⟨-, hS, hI, hJ⟩, -⟩ := hs.exists_live hV
    simp [hS, hI, hJ] at h
  | locateMiss T v hV hS h =>
    obtain ⟨T', i, j, ⟨-, hS', -⟩, hw⟩ := hs.exists_live hV
    obtain rfl := Option.some.inj (hS.symm.trans hS')
    obtain ⟨r, c, hv⟩ := memory_wf_holds_every_value hw v
    exact absurd hv (h r c)
  | _ => exact ⟨_, rfl⟩

theorem State.resetBlock_inv (s : State) : s.resetBlock.Inv :=
  ⟨rfl, State.snapOk_of_cleared rfl, State.respOk_respond_empty s .ok⟩

/-- Settles O8: a reset leaves the invariant's first case, a command keeps it, and the events themselves
touch the ports alone. -/
theorem stepKeepsInvariant : Obligations.StepKeepsInvariant := by
  intro s t hs
  refine step_induction (P := fun o => o = .next t → t.Inv) s ?_ (fun rest h => ?_)
    (fun i key rest h => exec_keeps_inv (s := s.accept key rest) hs h) (fun key rest h => ?_)
  · rintro ⟨⟩; exact hs
  · cases h; exact State.resetBlock_inv _
  · cases h
    obtain ⟨hsession, hsnap, -⟩ := hs
    exact ⟨hsession, hsnap, State.respOk_respond_empty _ _⟩

/-- Settles O9: the only stops are a read of ⊥ and a missing value, and a session that meets the invariant
has neither. -/
theorem stepNeverStops : Obligations.StepNeverStops := fun s hs =>
  step_induction (P := Completes) s ⟨_, rfl⟩ (fun _ => ⟨_, rfl⟩)
    (fun _ key rest => exec_completes (s := s.accept key rest) hs) (fun _ _ => ⟨_, rfl⟩)

/-- Settles O7: it is what `RST` leaves. -/
theorem resetMeetsInvariant : Obligations.ResetMeetsInvariant := State.resetBlock_inv State.reset

/-- Settles O2: the step of `RST` is `State.resetBlock`, and its fields are those written out here. -/
theorem resetEventResetsEveryElement : Obligations.ResetEventResetsEveryElement := fun _ _ h =>
  step_of_rst h

/-- Settles O4: `State.accept` is the key word on `KEY` and the event taken. -/
theorem commandStepRunsDecodedInstruction : Obligations.CommandStepRunsDecodedInstruction :=
  fun _ _ _ _ _ h hd => step_of_command h hd

/-- Settles O5: with nothing pending there is nothing to fetch. -/
theorem idleStepHoldsState : Obligations.IdleStepHoldsState := fun _ h => step_of_idle h

theorem exec_ports {i : Instr} {s t : State} (h : exec i s = .next t) :
    t.keyBus = s.keyBus ∧ t.inputs = s.inputs := by
  have ho := exec_outcome i s
  rw [h] at ho
  cases ho <;> exact ⟨rfl, rfl⟩

/-- The ports after a command's step: its key word, and the events behind it. -/
theorem step_command_ports {s t : State} {cmd : Word} {key : KeyWord} {rest : List HostEvent}
    (h : s.inputs = .command cmd key :: rest) (hs : step s = .next t) :
    t.keyBus = key ∧ t.inputs = rest := by
  match hd : decode cmd with
  | .ok i => exact exec_ports ((step_of_command h hd).symm.trans hs)
  | .error why =>
    cases (step_of_illegal h hd).symm.trans hs
    exact ⟨rfl, rfl⟩

/-- Settles O3: whatever the command did, it left the ports as the reset takes them, and the reset keeps
nothing else. -/
theorem resetOverwritesACommand : Obligations.ResetOverwritesACommand := by
  intro s t cmd key rest h hs
  obtain ⟨hkey, hinputs⟩ := step_command_ports h hs
  rw [step_of_rst hinputs, State.resetBlock, hkey]

/-- Settles O48: the writes of S, I, J and V are those of five commands' successes. -/
theorem everyCommandLeavesThePorts : Obligations.EveryCommandLeavesThePorts := by
  intro i s t h
  obtain ⟨hkey, hinputs⟩ := exec_ports h
  refine ⟨hkey, hinputs, fun hl hes he hd ha => ?_⟩
  have ho := exec_outcome i s
  rw [h] at ho
  cases ho with
  | loadKey T hi => exact absurd hi hl
  | endSession hi => exact absurd hi hes
  | enc pt k e hi => exact absurd hi (he _)
  | dec ct k e hi => exact absurd hi (hd _)
  | absorb pt k e hi => exact absurd hi (ha _)
  | _ => exact ⟨rfl, rfl, rfl, rfl⟩

/-! ### A word that is no command (R89, R224) -/

/-- Settles O6: the decoder refuses exactly the words no row spells, and a refused word's step is the raise
whatever the state. -/
theorem illegalWordRaisesIllegalCommand : Obligations.IllegalWordRaisesIllegalCommand := by
  refine ⟨fun w => decode_error_iff_no_row.trans ?_, fun s cmd key rest h hrow => ?_⟩
  · simp only [OpcodeRow.spells, decide_eq_false_iff_not, ne_eq]
  · obtain ⟨why, hd⟩ := decode_error_iff_no_row.2 hrow
    rw [step_of_illegal h hd, State.raise_eq]
    rfl

end Sys2Proof.Machine

/-! SUPPORT. The key and the transition: which keys LOAD_KEY takes, and where the rotations, the pointer and
the ciphertext go. -/

namespace Sys2Proof.Machine

/-! ### LOAD_KEY (R111, R112) -/

/-- A list of as many distinct numbers below a bound as the bound says holds each of them once. -/
theorem map_range_perm_iff {n : Nat} {f : Nat → Nat} :
    ((List.range n).map f).Perm (List.range n) ↔
      (∀ k, k < n → f k < n) ∧ ((List.range n).map f).Nodup := by
  constructor
  · intro h
    exact ⟨fun k hk => List.mem_range.1 (h.subset (List.mem_map_of_mem (List.mem_range.2 hk))),
      h.nodup_iff.2 List.nodup_range⟩
  · rintro ⟨hlt, hnodup⟩
    refine (List.subperm_of_subset hnodup fun m hm => ?_).perm_of_length_le (by simp)
    obtain ⟨k, hk, rfl⟩ := List.mem_map.1 hm
    exact List.mem_range.2 (hlt k (List.mem_range.1 hk))

theorem keyEntries_perm_iff (key : KeyWord) : ((List.range 36).map (keyEntry key)).Perm (List.range 36) ↔
    (∀ k, k < 36 → keyEntry key k ≤ 35) ∧ keyHasDuplicate key = false := by
  rw [map_range_perm_iff, keyHasDuplicate, Bool.not_eq_false', decide_eq_true_iff]
  simp only [Nat.lt_succ_iff (n := 35)]

/-- What a successful LOAD_KEY leaves (R111). -/
def State.loaded (s : State) (T : Tableau) : State :=
  (((s.writeKeyed ⟨T, 0, 0⟩).writeValid true).writeSnap Snap.cleared).respond .ok false 0 0 0

/-- LOAD_KEY answers the raise or the load that its operand decides. -/
theorem exec_loadKey_cases (s : State) :
    (∃ code, code ≠ .ok ∧ keyOperand s.keyBus = .error (.raise code) ∧
      exec .loadKey s = .next (s.raise code)) ∨
    ∃ T, keyOperand s.keyBus = .ok T ∧ Memory.wf T = true ∧ exec .loadKey s = .next (s.loaded T) := by
  obtain ⟨_, hk⟩ | ⟨_, _, hk⟩ | ⟨_, _, T, hk, hw, _⟩ := keyOperand_cases s.keyBus
  · exact .inl ⟨_, by decide, hk, exec_loadKey_of_raise hk⟩
  · exact .inl ⟨_, by decide, hk, exec_loadKey_of_raise hk⟩
  · exact .inr ⟨T, hk, hw, exec_loadKey_of_tableau hk⟩

theorem keyOperand_eq_ok_iff (key : KeyWord) : (∃ T, keyOperand key = .ok T) ↔
    ((List.range 36).map (keyEntry key)).Perm (List.range 36) := by
  rw [keyEntries_perm_iff]
  obtain ⟨⟨k, hk, hgt⟩, he⟩ | ⟨_, hd, he⟩ | ⟨hle, hd, T, he, _⟩ := keyOperand_cases key
  · exact iff_of_false (by simp [he]) fun h => absurd (h.1 k hk) (by omega)
  · exact iff_of_false (by simp [he]) fun h => absurd (hd.symm.trans h.2) (by decide)
  · exact iff_of_true ⟨T, he⟩ ⟨hle, hd⟩

/-- Settles O23: the operand is a tableau exactly when its 36 entries, each below 36, are distinct. -/
theorem loadKeyAcceptsExactlyPermutations : Obligations.LoadKeyAcceptsExactlyPermutations := by
  intro s
  rw [← keyOperand_eq_ok_iff]
  obtain ⟨code, hne, hk, he⟩ | ⟨T, hk, -, he⟩ := exec_loadKey_cases s
  · exact ⟨_, he, iff_of_false hne (by simp [hk]), fun _ => ⟨rfl, rfl, rfl, rfl, rfl⟩⟩
  · exact ⟨_, he, iff_of_true rfl ⟨T, hk⟩, fun hne => absurd rfl hne⟩

/-- Settles O24: the operand is read from the key word alone, and a load writes every other field but the
pending events. -/
theorem loadKeyForgetsTheOldState : Obligations.LoadKeyForgetsTheOldState := by
  intro s₁ s₂ t₁ hkey h hok
  obtain ⟨code, hne, -, he⟩ | ⟨T, hk, -, he⟩ := exec_loadKey_cases s₁
  · cases he.symm.trans h
    exact absurd hok hne
  · cases he.symm.trans h
    rw [exec_loadKey_of_tableau (hkey ▸ hk)]
    simp only [State.loaded, State.respond, State.writeSnap, State.writeValid, State.writeKeyed, hkey]

/-! ### Where a rotation takes a value (R57) -/

theorem valueAt_rotRowRight_moved (r : Coord) (t : Tableau) (a c : Coord) :
    valueAt (rotRowRight r t) a (if a = r then c + 1 else c) = valueAt t a c := by
  rw [valueAt_rotRowRight]
  split
  · rw [add_sub_cancel_right]
  · rfl

theorem valueAt_rotColDown_moved (y : Coord) (t : Tableau) (a c : Coord) :
    valueAt (rotColDown y t) (if c = y then a + 1 else a) c = valueAt t a c := by
  rw [valueAt_rotColDown]
  split
  · rw [add_sub_cancel_right]
  · rfl

/-- Settles O29: on the turned line the value moves one place, elsewhere none. -/
theorem rotationsMoveValues : Obligations.RotationsMoveValues := by
  refine ⟨fun t r c => ?_, fun t r a c ha => ?_, fun t y k => ?_, fun t y k c hc => ?_⟩
  · simpa using valueAt_rotRowRight_moved r t r c
  · simpa [ha] using valueAt_rotRowRight_moved r t a c
  · simpa using valueAt_rotColDown_moved y t k y
  · simpa [hc] using valueAt_rotColDown_moved y t k c

/-- Settles O30: each unit by its compare and subtract. -/
theorem pointerUnitsAreArithmeticModSix : Obligations.PointerUnitsAreArithmeticModSix := by
  refine ⟨fun a => ?_, fun a b => ?_, fun a b => ?_, fun v => ⟨(rowOffset_colOffset v).symm, rfl, rfl⟩⟩
  · rw [inc6_eq]; exact Fin.val_add a 1
  · rw [add6_eq]; exact Fin.val_add a b
  · unfold sub6
    split <;> simp only <;> omega

/-! ### TRANSITION (R148, R149, R150, R156) -/

/-- Settles O32: P3 takes `J` where P1 took the pointed value, and P5 takes `I` where P4 took it. -/
theorem pointerFollowsItsCell : Obligations.PointerFollowsItsCell := by
  intro d k
  rw [transition_I, transition_J, add_sub_cancel_right, add_sub_cancel_right, transition_S]
  calc valueAt (rotColDown (rotatedColumn d) (rotRowRight d.r k.S)) (columnFollowedI d k) (rowFollowedJ d k)
      = valueAt (rotRowRight d.r k.S) k.I (rowFollowedJ d k) := by
        rw [columnFollowedI, inc6_eq]
        exact valueAt_rotColDown_moved ..
    _ = valueAt k.S k.I k.J := by
        rw [rowFollowedJ, inc6_eq]
        exact valueAt_rotRowRight_moved ..

/-- Settles O33: P2 takes the column where P1 took the ciphertext's cell, so P4 moves that cell. -/
theorem targetFollowsCiphertext : Obligations.TargetFollowsCiphertext := by
  intro d k hct
  have hP1 : valueAt (rotRowRight d.r k.S) d.x (rotatedColumn d) = d.ct := by
    rw [rotatedColumn_eq, valueAt_rotRowRight_moved, hct]
  refine ⟨hP1, ?_⟩
  rw [transition_S]
  have hP4 := valueAt_rotColDown_moved (rotatedColumn d) (rotRowRight d.r k.S) d.x (rotatedColumn d)
  rwa [if_pos rfl, hP1] at hP4

/-- Settles O34: both rotations keep a permutation, and a permutation holds each value once. -/
theorem transitionKeepsPermutation : Obligations.TransitionKeepsPermutation := by
  intro d k h
  have hw := transition_keeps_wf d h
  refine ⟨hw, fun v => ?_⟩
  obtain ⟨r, c, hv⟩ := memory_wf_holds_every_value hw v
  refine ⟨(r, c), hv, fun p hp => ?_⟩
  obtain ⟨hr, hc⟩ := (memory_wf_iff_valueAt _).1 hw p.1 p.2 r c (hp.trans hv.symm)
  exact Prod.ext hr hc

theorem valueAt_transition_of_ne {d : Descriptor} {a c : Coord} (k : Keyed) (ha : a ≠ d.r)
    (hc : c ≠ rotatedColumn d) : valueAt (transition d k).S a c = valueAt k.S a c := by
  rw [transition_S, valueAt_rotColDown, if_neg hc, valueAt_rotRowRight, if_neg ha]

/-- Settles O35: P1 turns row `r` alone, and P4 column `yr` alone. -/
theorem transitionWritesOneRowAndOneColumn : Obligations.TransitionWritesOneRowAndOneColumn :=
  fun _ k _ _ => valueAt_transition_of_ne k

end Sys2Proof.Machine

/-! SUPPORT. The commands among each other: ENC against DEC and ABSORB, a command against itself after an
error, and what a command leaves unwritten and unread. -/

namespace Sys2Proof.Machine

/-! ### The encrypt and the decrypt step of the same symbols (R161, R171) -/

/-- In a permutation the two steps between a plaintext and a ciphertext have the same values. -/
theorem exists_step_of_pt {k : Keyed} (h : Memory.wf k.S = true) (pt : Sym) :
    ∃ e, encryptStep k pt = .ok e ∧ e.pt = pt ∧ decryptStep k e.d.ct = .ok e := by
  obtain ⟨r, c, rfl⟩ := memory_wf_holds_every_value h pt
  refine ⟨_, encryptStep_valueAt h r c, rfl, ?_⟩
  rw [decryptStep_valueAt h, add_sub_cancel_right, add_sub_cancel_right]

theorem exists_step_of_ct {k : Keyed} (h : Memory.wf k.S = true) (ct : Sym) :
    ∃ e, decryptStep k ct = .ok e ∧ e.d.ct = ct ∧ encryptStep k e.pt = .ok e := by
  obtain ⟨x, y, rfl⟩ := memory_wf_holds_every_value h ct
  refine ⟨_, decryptStep_valueAt h x y, rfl, ?_⟩
  rw [encryptStep_valueAt h, sub_add_cancel, sub_add_cancel]

theorem exists_sym_of_le {n : Nat} (hn : n ≤ 35) : ∃ v : Sym, v.val = n := ⟨⟨n, by omega⟩, rfl⟩

/-- Settles O39: the two commands run the same step values, of which ENC answers the ciphertext and DEC the
plaintext. -/
theorem encAndDecInvertEachOther : Obligations.EncAndDecInvertEachOther := by
  intro s T i j n m hlive hT hn hm
  obtain ⟨pt, rfl⟩ := exists_sym_of_le hn
  obtain ⟨ct, rfl⟩ := exists_sym_of_le hm
  obtain ⟨e, he, hpt, hde⟩ := exists_step_of_pt (k := ⟨T, i, j⟩) hT pt
  obtain ⟨d, hd, hct, hed⟩ := exists_step_of_ct (k := ⟨T, i, j⟩) hT ct
  rw [exec_enc_of_step hlive he, exec_dec_of_step hlive hd]
  have hiff : e.d.ct = ct ↔ d.pt = pt := by
    constructor
    · rintro rfl
      cases hde.symm.trans hd
      exact hpt
    · rintro rfl
      cases he.symm.trans hed
      exact hct
  simp only [Host.Outcome.next.injEq, exists_eq_left', State.respond_resp, respDsym_respWord, symBits_toNat,
    Fin.val_inj]
  refine ⟨hiff, ?_⟩
  rintro _ _ rfl h rfl
  rw [State.respond_resp, respDsym_respWord, symBits_toNat, Fin.val_inj] at h
  subst h
  cases hde.symm.trans hd
  exact ⟨rfl, by simp [hpt]⟩

/-- Settles O40: from a permutation the ciphertext of a plaintext is the one DEC takes back to it, so no two
plaintexts share one. -/
theorem encIsABijection : Obligations.EncIsABijection := by
  intro s T i j hlive hT
  choose step henc hpt hdec using fun pt => exists_step_of_pt (k := ⟨T, i, j⟩) hT pt
  refine ⟨fun pt => (step pt).d.ct, Finite.injective_iff_bijective.1 fun pt pt' hct => ?_, fun pt =>
    ⟨⟨_, exec_enc_of_step hlive (henc pt), ?_⟩, ⟨_, exec_dec_of_step hlive (hdec pt), ?_⟩⟩⟩
  · have hsame : step pt = step pt' :=
      Except.ok.inj ((hdec pt).symm.trans ((congrArg _ hct).trans (hdec pt')))
    rw [← hpt pt, ← hpt pt', hsame]
  · simp
  · simp [hpt pt]

/-! ### How a step command stops -/

/-- A step command whose operand is an index faults where the pointer's cell has no value. -/
theorem finish_readKeyed_of_bottom {s : State} (hV : s.V = true)
    (hbottom : s.S = none ∨ s.I = none ∨ s.J = none) (v : Sym) (rest : Sym → Keyed → Except Stop State) :
    finish s (needKeyed s >>= fun _ => symOperand v.val >>= fun u => readKeyed s >>= rest u) =
      .fault .bottomRead := by
  obtain ⟨k, hS, hI, hJ, -⟩ | ⟨-, hk⟩ := readKeyed_cases s
  · simp [hS, hI, hJ] at hbottom
  · rw [needKeyed_of_valid hV, stop_bind_ok, symOperand_val, stop_bind_ok, hk, stop_bind_error,
      finish_fault]

/-- Settles O45: the checks pass, and the next thing each command does is the read. -/
theorem readingBottomFaults : Obligations.ReadingBottomFaults := by
  intro s hV
  refine ⟨fun hS => ⟨fun row col hr hc => ?_, fun n hn => ?_⟩, fun hbottom => ⟨?_, fun n hn => ?_⟩⟩
  · simp only [exec, execValueAt, needKeyed_of_valid hV, coordOperands_of_le hr hc, hS, readElem_none,
      stop_bind_ok, stop_bind_error, finish_fault]
  · simp only [exec, execLocate, needKeyed_of_valid hV, symOperand_of_le hn, hS, readElem_none,
      stop_bind_ok, stop_bind_error, finish_fault]
  · obtain ⟨k, hS, hI, hJ, -⟩ | ⟨-, hk⟩ := readKeyed_cases s
    · simp [hS, hI, hJ] at hbottom
    · simp only [exec, execPointerValue, needKeyed_of_valid hV, hk, stop_bind_ok, stop_bind_error,
        finish_fault]
  · obtain ⟨v, rfl⟩ := exists_sym_of_le hn
    exact ⟨finish_readKeyed_of_bottom hV hbottom v _, finish_readKeyed_of_bottom hV hbottom v _,
      finish_readKeyed_of_bottom hV hbottom v _⟩

theorem exec_enc_of_fault {s : State} {T : Tableau} {i j : Coord} {v : Sym} {f : Fault}
    (h : s.Live T i j) (he : encryptStep ⟨T, i, j⟩ v = .error (.fault f)) :
    exec (.enc v.val) s = .fault f := by
  refine (finish_symOperand_of_live h _).trans ?_
  rw [he, stop_bind_error, finish_fault]

theorem exec_absorb_of_fault {s : State} {T : Tableau} {i j : Coord} {v : Sym} {f : Fault}
    (h : s.Live T i j) (he : encryptStep ⟨T, i, j⟩ v = .error (.fault f)) :
    exec (.absorb v.val) s = .fault f := by
  refine (finish_symOperand_of_live h _).trans ?_
  rw [he, stop_bind_error, finish_fault]

/-- ENC and ABSORB run the same step, or they stop alike. -/
theorem exec_enc_absorb_cases (n : Nat) (s : State) :
    (∃ k e, exec (.enc n) s = .next ((s.commitStep .enc k e).respond .ok true (symBits e.d.ct) 0 0) ∧
      exec (.absorb n) s = .next ((s.commitStep .absorb k e).respond .ok false 0 0 0)) ∨
    (exec (.absorb n) s = exec (.enc n) s ∧ ∀ t, exec (.enc n) s = .next t → t.lastCode ≠ .ok) := by
  cases hV : s.V
  · rw [exec_of_not_valid rfl hV, exec_of_not_valid rfl hV]
    exact .inr ⟨rfl, fun t h => by cases h; simp⟩
  obtain ⟨v, rfl, -⟩ | ⟨hn, -⟩ := symOperand_cases n
  · obtain ⟨k, hS, hI, hJ, -⟩ | ⟨hbottom, -⟩ := readKeyed_cases s
    · have hlive : s.Live k.S k.I k.J := ⟨hV, hS, hI, hJ⟩
      obtain ⟨r, c, -, he⟩ | ⟨he, -⟩ := encryptStep_cases k v
      · exact .inl ⟨k, _, exec_enc_of_step hlive he, exec_absorb_of_step hlive he⟩
      · rw [exec_enc_of_fault hlive he, exec_absorb_of_fault hlive he]
        exact .inr ⟨rfl, fun _ h => nomatch h⟩
    · have henc : exec (.enc v.val) s = .fault .bottomRead := finish_readKeyed_of_bottom hV hbottom v _
      have habsorb : exec (.absorb v.val) s = .fault .bottomRead :=
        finish_readKeyed_of_bottom hV hbottom v _
      rw [henc, habsorb]
      exact .inr ⟨rfl, fun _ h => nomatch h⟩
  · rw [exec_of_symbol_gt rfl hV hn, exec_of_symbol_gt rfl hV hn]
    exact .inr ⟨rfl, fun t h => by cases h; simp⟩

/-- Settles O41: ABSORB stops as ENC does, or both run the same step and differ in what they record. -/
theorem absorbIsEncWithoutOutput : Obligations.AbsorbIsEncWithoutOutput := by
  intro s n
  obtain ⟨k, e, henc, habsorb⟩ | ⟨hsame, hne⟩ := exec_enc_absorb_cases n s
  · rw [henc, habsorb]
    refine ⟨fun f => by simp, ?_⟩
    rintro t ⟨⟩
    exact ⟨_, rfl, fun hne => absurd rfl hne, fun _ => ⟨rfl, rfl⟩⟩
  · rw [hsame]
    exact ⟨fun f => Iff.rfl, fun t ht => ⟨t, ht, fun _ => rfl, fun hok => absurd hok (hne t ht)⟩⟩

/-! ### A cause of an error outlives the error (R227, R230) -/

theorem exec_of_raiseCause {i : Instr} {s : State} {code : Code} (h : RaiseCause i s code) :
    exec i s = .next (s.raise code) := by
  match code, h with
  | .notKeyed, ⟨hi, hV⟩ => exact exec_of_not_valid hi hV
  | .invalidKey, ⟨hi, hle, hdup⟩ =>
    subst hi
    exact exec_loadKey_of_raise (keyOperand_of_duplicate hle hdup)
  | .invalidSymbol, .inl ⟨hi, hgt⟩ =>
    subst hi
    exact exec_loadKey_of_raise (keyOperand_of_entry_gt hgt)
  | .invalidSymbol, .inr ⟨hV, n, hi, hn⟩ => exact exec_of_symbol_gt hi hV hn
  | .badCoord, ⟨hV, row, col, hi, hgt⟩ =>
    subst hi
    exact exec_valueAt_of_gt hV hgt

/-- A raise changes nothing that a cause speaks of. -/
theorem raiseCause_raise {i : Instr} {s : State} {code code' : Code} (h : RaiseCause i s code) :
    RaiseCause i (s.raise code') code := by
  cases code <;> exact h

/-- Settles O44: the cause still stands after the raise, and raising twice is raising once. -/
theorem failingCommandFailsAgain : Obligations.FailingCommandFailsAgain := by
  intro i s t h hne
  obtain ⟨ht, hcause⟩ := exec_raise_of_lastCode h rfl hne
  rw [ht] at hcause ⊢
  exact exec_of_raiseCause (raiseCause_raise hcause)

/-! ### Frames (R24, R60, R156) -/

/-- Settles O46: a query's only write is its response, which it does not read. -/
theorem queriesWriteOnlyTheResponse : Obligations.QueriesWriteOnlyTheResponse := by
  intro i s t hi h
  have hquery : isQuery i = true := by
    obtain rfl | ⟨n, rfl⟩ | ⟨row, col, rfl⟩ | rfl := hi <;> rfl
  obtain ⟨code, dv, ds, dr, dc, rfl⟩ := exec_query_eq_respond hquery h
  exact ⟨rfl, exec_query_repeat hquery h⟩

theorem valid_of_exec_ok {i : Instr} {s t : State} (hi : needsTableau i = true)
    (h : exec i s = .next t) (hok : t.lastCode = .ok) : s.V = true := by
  rw [← Bool.not_eq_false]
  intro hV
  cases (exec_of_not_valid hi hV).symm.trans h
  cases hok

/-- Settles O47: an error is a raise, and a success writes what one TRANSITION writes. -/
theorem stepCommandsFrame : Obligations.StepCommandsFrame := by
  refine ⟨fun i s t hi h => ?_, fun s t k pt e hk he h hok => ?_, fun s t k ct e hk he h hok => ?_⟩
  · have hV : t.V = s.V := by
      obtain ⟨n, rfl⟩ | ⟨n, rfl⟩ | ⟨n, rfl⟩ := hi <;> exact exec_V_eq h (by simp) (by simp)
    obtain ⟨hkey, hinputs⟩ := exec_ports h
    refine ⟨hV, hkey, hinputs, fun hne => ?_⟩
    rw [(exec_raise_of_lastCode h rfl hne).1]
    exact ⟨rfl, rfl, rfl, rfl⟩
  · refine ⟨(transition e.d k).S, ?_, fun a c => valueAt_transition_of_ne k⟩
    obtain h | h := h
    · have hlive := live_of_readKeyed (valid_of_exec_ok rfl h hok) hk
      cases (exec_enc_of_step hlive he).symm.trans h
      rfl
    · have hlive := live_of_readKeyed (valid_of_exec_ok rfl h hok) hk
      cases (exec_absorb_of_step hlive he).symm.trans h
      rfl
  · refine ⟨(transition e.d k).S, ?_, fun a c => valueAt_transition_of_ne k⟩
    have hlive := live_of_readKeyed (valid_of_exec_ok rfl h hok) hk
    cases (exec_dec_of_step hlive he).symm.trans h
    rfl

/-! ### What no command tells apart -/

/-- Two outcomes of one kind, with related next states. -/
inductive OutcomeRel (R : State → State → Prop) :
    Host.Outcome State Fault Refusal → Host.Outcome State Fault Refusal → Prop
  | next {t u : State} (h : R t u) : OutcomeRel R (.next t) (.next u)
  | fault (f : Fault) : OutcomeRel R (.fault f) (.fault f)

/-- The commands' reads of `V`, `S`, `I` and `J` do not tell related states apart, and their writes keep
states related. -/
structure EngineRel (R : State → State → Prop) : Prop where
  reads {s u : State} : R s u → u.V = s.V ∧ u.S = s.S ∧ u.I = s.I ∧ u.J = s.J
  respond {s u : State} (code : Code) (dv : Bool) (ds : BitVec 6) (dr dc : BitVec 3) :
    R s u → R (s.respond code dv ds dr dc) (u.respond code dv ds dr dc)
  writeKeyed {s u : State} (k : Keyed) : R s u → R (s.writeKeyed k) (u.writeKeyed k)
  writeSnap {s u : State} (n : Snap) : R s u → R (s.writeSnap n) (u.writeSnap n)
  writeValid {s u : State} (v : Bool) : R s u → R (s.writeValid v) (u.writeValid v)
  dropKeyed {s u : State} : R s u → R s.dropKeyed u.dropKeyed

section
variable {R : State → State → Prop} {s u : State}

theorem finish_rel {α : Type} (hR : EngineRel R) (h : R s u) (m : Except Stop α)
    {f g : α → Except Stop State} (hfg : ∀ a, OutcomeRel R (finish s (f a)) (finish u (g a))) :
    OutcomeRel R (finish s (m >>= f)) (finish u (m >>= g)) := by
  match m with
  | .ok a => exact hfg a
  | .error (.raise code) => exact .next (hR.respond code false 0 0 0 h)
  | .error (.fault f) => exact .fault f

theorem exec_rel (hR : EngineRel R) (h : R s u) (i : Instr) (hkey : i = .loadKey → u.keyBus = s.keyBus) :
    OutcomeRel R (exec i s) (exec i u) := by
  obtain ⟨hV, hS, hI, hJ⟩ := hR.reads h
  have hneed : needKeyed u = needKeyed s := by rw [needKeyed, needKeyed, hV]
  have hread : readKeyed u = readKeyed s := by rw [readKeyed, readKeyed, hS, hI, hJ]
  have hcommit (kind : SnapKind) (k : Keyed) (e : StepValues) :
      R (s.commitStep kind k e) (u.commitStep kind k e) := hR.writeSnap _ (hR.writeKeyed _ h)
  cases i with
  | nop => exact .next (hR.respond _ _ _ _ _ h)
  | loadKey =>
    simp only [exec, execLoadKey, hkey]
    exact finish_rel hR h _ fun T =>
      .next (hR.respond _ _ _ _ _ (hR.writeSnap _ (hR.writeValid _ (hR.writeKeyed _ h))))
  | locate n =>
    simp only [exec, execLocate, hneed, hS]
    exact finish_rel hR h _ fun _ => finish_rel hR h _ fun _ => finish_rel hR h _ fun _ =>
      finish_rel hR h _ fun _ => .next (hR.respond _ _ _ _ _ h)
  | valueAt row col =>
    simp only [exec, execValueAt, hneed, hS]
    exact finish_rel hR h _ fun _ => finish_rel hR h _ fun _ => finish_rel hR h _ fun _ =>
      .next (hR.respond _ _ _ _ _ h)
  | pointerValue =>
    simp only [exec, execPointerValue, hneed, hread]
    exact finish_rel hR h _ fun _ => finish_rel hR h _ fun _ => .next (hR.respond _ _ _ _ _ h)
  | enc n =>
    simp only [exec, execEnc, hneed, hread]
    exact finish_rel hR h _ fun _ => finish_rel hR h _ fun _ => finish_rel hR h _ fun k =>
      finish_rel hR h _ fun e => .next (hR.respond _ _ _ _ _ (hcommit _ k e))
  | dec n =>
    simp only [exec, execDec, hneed, hread]
    exact finish_rel hR h _ fun _ => finish_rel hR h _ fun _ => finish_rel hR h _ fun k =>
      finish_rel hR h _ fun e => .next (hR.respond _ _ _ _ _ (hcommit _ k e))
  | absorb n =>
    simp only [exec, execAbsorb, hneed, hread]
    exact finish_rel hR h _ fun _ => finish_rel hR h _ fun _ => finish_rel hR h _ fun k =>
      finish_rel hR h _ fun e => .next (hR.respond _ _ _ _ _ (hcommit _ k e))
  | endSession =>
    exact .next (hR.respond _ _ _ _ _ (hR.writeSnap _ (hR.writeValid _ (hR.dropKeyed h))))

end

/-- States that differ in what stands on `KEY` alone. -/
theorem engineRel_keyBus (key : KeyWord) : EngineRel fun t u => u = { t with keyBus := key } where
  reads := by rintro s _ rfl; exact ⟨rfl, rfl, rfl, rfl⟩
  respond := by rintro s _ _ _ _ _ _ rfl; rfl
  writeKeyed := by rintro s _ _ rfl; rfl
  writeSnap := by rintro s _ _ rfl; rfl
  writeValid := by rintro s _ _ rfl; rfl
  dropKeyed := by rintro s _ rfl; rfl

/-- States that differ in the snapshot alone. -/
theorem engineRel_snap : EngineRel fun t u => u = { t with snap := u.snap } where
  reads := fun h => by rw [h]; exact ⟨rfl, rfl, rfl, rfl⟩
  respond := fun _ _ _ _ _ h => by rw [h]; rfl
  writeKeyed := fun _ h => by rw [h]; rfl
  writeSnap := fun _ h => by rw [h]; rfl
  writeValid := fun _ h => by rw [h]; rfl
  dropKeyed := fun h => by rw [h]; rfl

/-! ### The key bus and the snapshot registers (R32, R80) -/

/-- Settles O49: only LOAD_KEY's operand reads `KEY`. -/
theorem keyIsIgnoredUnlessLoaded : Obligations.KeyIsIgnoredUnlessLoaded := by
  intro i s key hi
  have hrel := exec_rel (engineRel_keyBus key) (s := s) rfl i fun h => absurd h hi
  generalize exec i { s with keyBus := key } = o at hrel ⊢
  refine ⟨fun t ht => ?_, fun f hf => ?_⟩
  · rw [ht] at hrel
    cases hrel with
    | next h => rw [h]
  · rw [hf] at hrel
    cases hrel
    rfl

theorem encryptStep_pt {k : Keyed} {pt : Sym} {e : StepValues} (h : encryptStep k pt = .ok e) :
    e.pt = pt := by
  obtain ⟨r, c, -, he⟩ | ⟨he, -⟩ := encryptStep_cases k pt <;> cases h.symm.trans he
  rfl

theorem decryptStep_ct {k : Keyed} {ct : Sym} {e : StepValues} (h : decryptStep k ct = .ok e) :
    e.d.ct = ct := by
  obtain ⟨x, y, -, he⟩ | ⟨he, -⟩ := decryptStep_cases k ct <;> cases h.symm.trans he
  rfl

/-- Settles O50: each way a command ends writes the snapshot it names or none, and states that differ in the
snapshot alone stay so. -/
theorem snapshotIsAPureObserver : Obligations.SnapshotIsAPureObserver := by
  refine ⟨fun i s t h => ?_, fun i s t n h => ?_⟩
  · have ho := exec_outcome i s
    rw [h] at ho
    cases ho with
    | notKeyed | badSymbol | badCoord | badEntry | badKey => exact ⟨fun _ => rfl, nofun⟩
    | nop hi | locate _ _ _ _ hi | valueAt _ _ _ hi | pointerValue _ hi | endSession hi | loadKey _ hi =>
      subst hi
      exact ⟨fun hne => absurd rfl hne, fun _ => rfl⟩
    | enc pt k e hi hV hk he =>
      subst hi
      exact ⟨fun hne => absurd rfl hne, fun _ => ⟨rfl, congrArg Fin.val (encryptStep_pt he), by simp⟩⟩
    | dec ct k e hi hV hk he =>
      subst hi
      exact ⟨fun hne => absurd rfl hne, fun _ => ⟨rfl, congrArg Fin.val (decryptStep_ct he), by simp⟩⟩
    | absorb pt k e hi hV hk he =>
      subst hi
      exact ⟨fun hne => absurd rfl hne, fun _ => ⟨rfl, congrArg Fin.val (encryptStep_pt he)⟩⟩
  · have hrel := exec_rel engineRel_snap (s := s) (u := { s with snap := n }) rfl i fun _ => rfl
    rw [h] at hrel
    generalize exec i { s with snap := n } = o at hrel ⊢
    cases hrel with
    | next h => exact ⟨_, rfl, h⟩

/-! ### What the recorder's snapshot shows (R199) -/

theorem shown_map_val {absent : Bool} {v : Sym} {n : Nat} (h : v.val = n) :
    (if absent then none else some v).map Fin.val = if absent then none else some n := by
  subst h
  cases absent <;> rfl

/-- The snapshot of a fresh load shows the tableau, and the pointer at its start. -/
theorem snapshotOf_loaded (q : RecorderParams) (s : State) (T : Tableau) :
    snapshotOf q (s.loaded T).observe = ⟨some T, some 0, some 0, 0, 0, none, none⟩ := by
  cases hq : q.ySel <;> simp [snapshotOf, hq, State.loaded, State.observe, Snap.cleared, absentFields]

/-- The snapshot that a successful LOAD_KEY shows. -/
theorem exec_loadKey_shown {s t : State} (q : RecorderParams) (h : exec .loadKey s = .next t)
    (hok : t.lastCode = .ok) :
    t.S ≠ none ∧ snapshotOf q t.observe = ⟨t.S, some 0, some 0, 0, 0, none, none⟩ := by
  obtain ⟨code, hne, -, he⟩ | ⟨T, -, -, he⟩ := exec_loadKey_cases s
  · cases he.symm.trans h
    exact absurd hok hne
  · cases he.symm.trans h
    exact ⟨nofun, snapshotOf_loaded q s T⟩

/-- After a step command that succeeds `V = 1`, so the port shows the whole state. -/
theorem observe_of_exec_ok {i : Instr} {s t : State} (hi : needsTableau i = true)
    (h : exec i s = .next t) (hok : t.lastCode = .ok) :
    t.observe = ⟨t.S, t.I, t.J, t.status, t.resp, t.snap⟩ :=
  State.observe_of_valid ((exec_V_eq h (by rintro rfl; cases hi) (by rintro rfl; cases hi)).trans
    (valid_of_exec_ok hi h hok))

/-- Settles O60: the port shows the state, and in it the snapshot registers that the command wrote. -/
theorem snapshotShowsTheStep : Obligations.SnapshotShowsTheStep := by
  rintro q s t n shown hok rfl
  have hwritten (i : Instr) (h : exec i s = .next t) := (snapshotIsAPureObserver.1 i s t h).2 hok
  refine ⟨fun h => exec_loadKey_shown q h hok, fun h => ?_, fun h => ?_, fun h => ?_, fun h => ?_⟩
  · have hobserve : t.observe = ⟨t.S, t.I, t.J, t.status, t.resp, t.snap⟩ := by
      obtain h | h | h := h <;> exact observe_of_exec_ok rfl h hok
    rw [hobserve]
    exact ⟨rfl, rfl, rfl, rfl, fun hq => by simp only [snapshotOf, hq],
      fun hq => by simp only [snapshotOf, hq]⟩
  · obtain ⟨hkind, hpt, hct⟩ := hwritten _ h
    rw [observe_of_exec_ok rfl h hok]
    simp only [snapshotOf, hkind, absentFields]
    exact ⟨shown_map_val hpt, shown_map_val hct⟩
  · obtain ⟨hkind, hct, hpt⟩ := hwritten _ h
    rw [observe_of_exec_ok rfl h hok]
    simp only [snapshotOf, hkind, absentFields]
    exact ⟨shown_map_val hpt, shown_map_val hct⟩
  · obtain ⟨hkind, hpt⟩ := hwritten _ h
    rw [observe_of_exec_ok rfl h hok]
    simp only [snapshotOf, hkind, absentFields]
    exact ⟨shown_map_val hpt, shown_map_val rfl⟩

end Sys2Proof.Machine

/-! SUPPORT. The host's checks (43_session_and_host.md section 4): the indices of a text, and which check a bad
alphabet, key or text fails. -/

namespace Sys2Proof.Machine

/-! ### The alphabet (R200) -/

section
variable {caseFold : Bool} {a : Alphabet}

theorem toIndex_eq_ok_iff (hn : a.toList.Nodup) {ch : Char} {v : Sym} :
    toIndex caseFold a ch = .ok v ↔ toSymbol a v = foldCase caseFold ch := by
  obtain ⟨u, hu, he⟩ | ⟨hu, hm⟩ := toIndex_cases caseFold a ch
  · rw [hu, ← he, Except.ok.injEq, (toSymbol_injective hn).eq_iff, eq_comm]
  · rw [hu]
    exact iff_of_false nofun fun he => hm (he ▸ toSymbol_mem a v)

/-- Case folding leaves the symbols of an alphabet in canonical case alone (log entry 14). -/
theorem foldCase_toSymbol (h : caseFold = true → ∀ ch ∈ a.toList, ch.toLower = ch) (v : Sym) :
    foldCase caseFold (toSymbol a v) = toSymbol a v := by
  unfold foldCase
  split
  next hfold => exact h hfold _ (toSymbol_mem a v)
  next => rfl

end

/-- Settles O51: distinct symbols have distinct places, so the first place found is the only one. -/
theorem alphabetIndexAndSymbolInvert : Obligations.AlphabetIndexAndSymbolInvert := by
  intro symbols caseFold a ha hcanonical
  obtain ⟨rfl, -, hn⟩ := buildAlphabet_eq_ok ha
  exact ⟨fun v => (toIndex_eq_ok_iff hn).2 (foldCase_toSymbol hcanonical v).symm,
    fun ch v => toIndex_eq_ok_iff hn, fun ch => toIndex_of_not_mem⟩

section
variable {caseFold : Bool} {a : Alphabet}

theorem map_toSymbol_of_toIndices {chs : List Char} {vs : List Sym} (h : toIndices caseFold a chs = .ok vs) :
    vs.map (toSymbol a) = chs.map (foldCase caseFold) := by
  obtain ⟨us, hus, he⟩ | ⟨he, -⟩ := toIndices_cases caseFold a chs
  · cases h.symm.trans hus
    exact he
  · cases h.symm.trans he

theorem toIndices_of_not_mem {chs : List Char} (h : ∃ ch ∈ chs, foldCase caseFold ch ∉ a.toList) :
    toIndices caseFold a chs = .error .invalidSymbol := by
  obtain ⟨us, -, he⟩ | ⟨he, -⟩ := toIndices_cases caseFold a chs
  · obtain ⟨ch, hch, hm⟩ := h
    obtain ⟨v, -, hv⟩ := List.mem_map.1 (he ▸ List.mem_map_of_mem (f := foldCase caseFold) hch)
    exact absurd (hv ▸ toSymbol_mem a v) hm
  · exact he

theorem toIndices_of_mem {chs : List Char} (h : ∀ ch ∈ chs, foldCase caseFold ch ∈ a.toList) :
    ∃ vs, toIndices caseFold a chs = .ok vs := by
  obtain ⟨us, hus, -⟩ | ⟨-, ch, hch, hm⟩ := toIndices_cases caseFold a chs
  · exact ⟨us, hus⟩
  · exact absurd (h ch hch) hm

/-- An error after a text's indices is InvalidSymbolError too where the text has one. -/
theorem bind_toIndices_of_error {α : Type} (chs : List Char) {f : List Sym → Except HostError α}
    (h : ∀ vs, f vs = .error .invalidSymbol) :
    (toIndices caseFold a chs >>= f) = .error .invalidSymbol := by
  obtain ⟨vs, hvs, -⟩ | ⟨hvs, -⟩ := toIndices_cases caseFold a chs
  · rw [hvs, ok_bind, h]
  · rw [hvs, error_bind]

/-- The indices of a text made of the alphabet's own symbols. -/
theorem toIndices_map_toSymbol (hn : a.toList.Nodup)
    (h : caseFold = true → ∀ ch ∈ a.toList, ch.toLower = ch) (vs : List Sym) :
    toIndices caseFold a (vs.map (toSymbol a)) = .ok vs := by
  induction vs with
  | nil => rfl
  | cons v vs ih =>
    rw [List.map_cons, toIndices, (toIndex_eq_ok_iff hn).2 (foldCase_toSymbol h v).symm, ih]
    rfl

/-! ### The checks on a key (R201) -/

theorem keyIndices_of_not_mem {key : List Char} (h : ∃ ch ∈ key, foldCase caseFold ch ∉ a.toList) :
    keyIndices caseFold a key = .error .invalidSymbol := by
  rw [keyIndices, toIndices_of_not_mem h, error_bind]

/-- A key of the alphabet's symbols passes exactly when it has 36 distinct ones, folded. -/
theorem keyIndices_of_toIndices (hn : a.toList.Nodup) {key : List Char} {ks : List Sym}
    (hks : toIndices caseFold a key = .ok ks) : keyIndices caseFold a key =
      if key.length = 36 ∧ (key.map (foldCase caseFold)).Nodup then .ok ks else .error .invalidKey := by
  have hmap := map_toSymbol_of_toIndices hks
  have hlen : ks.length = key.length := by simpa using congrArg List.length hmap
  have hnodup : (key.map (foldCase caseFold)).Nodup ↔ ks.Nodup := by
    rw [← hmap, List.nodup_map_iff (toSymbol_injective hn)]
  simp only [keyIndices, hks, ok_bind, pure_eq_ok, hlen, hnodup, ne_eq, ite_not, ite_and]

theorem toIndices_of_keyIndices {key : List Char} {ks : List Sym}
    (h : keyIndices caseFold a key = .ok ks) : toIndices caseFold a key = .ok ks := by
  obtain ⟨us, hus, h⟩ := bind_eq_ok_iff.1 h
  rw [hus]
  split at h
  next => cases h
  next =>
    split at h
    next => exact h
    next => cases h

end

/-! ### The checks on a message (R202) -/

theorem hostCheck_of_bad_alphabet {p : HostParams} (h : ¬ (p.symbols.length = 36 ∧ p.symbols.Nodup))
    (key nonce header payload : List Char) :
    hostCheck p key nonce header payload = .error .configuration := by
  have halphabet : buildAlphabet p.symbols = .error .configuration := by
    unfold buildAlphabet
    split
    next hlen => rw [if_neg fun hn => h ⟨hlen, hn⟩]
    next => rfl
  rw [hostCheck, halphabet, error_bind]

section
variable {p : HostParams} {a : Alphabet} (ha : buildAlphabet p.symbols = .ok a) {key : List Char}
  (nonce header payload : List Char)
include ha

theorem hostCheck_of_bad_key {err : HostError} (hkey : keyIndices p.caseFold a key = .error err) :
    hostCheck p key nonce header payload = .error err := by
  rw [hostCheck, ha, ok_bind, hkey, error_bind]

theorem hostCheck_of_bad_text {ks : List Sym} (hkey : keyIndices p.caseFold a key = .ok ks)
    (h : ∃ ch ∈ nonce ++ header ++ payload, foldCase p.caseFold ch ∉ a.toList) :
    hostCheck p key nonce header payload = .error .invalidSymbol := by
  rw [hostCheck, ha, ok_bind, hkey, ok_bind]
  simp only [List.mem_append] at h
  obtain ⟨ch, (hch | hch) | hch, hm⟩ := h
  · rw [toIndices_of_not_mem ⟨ch, hch, hm⟩, error_bind]
  · refine bind_toIndices_of_error _ fun _ => ?_
    rw [toIndices_of_not_mem ⟨ch, hch, hm⟩, error_bind]
  · refine bind_toIndices_of_error _ fun _ => bind_toIndices_of_error _ fun _ => ?_
    rw [toIndices_of_not_mem ⟨ch, hch, hm⟩, error_bind]

theorem hostCheck_of_good_text {ks : List Sym} (hkey : keyIndices p.caseFold a key = .ok ks)
    (h : ∀ ch ∈ nonce ++ header ++ payload, foldCase p.caseFold ch ∈ a.toList) :
    ∃ c, hostCheck p key nonce header payload = .ok c := by
  simp only [List.mem_append, or_imp, forall_and] at h
  obtain ⟨⟨hnonce, hheader⟩, hpayload⟩ := h
  obtain ⟨ns, hns⟩ := toIndices_of_mem hnonce
  obtain ⟨hs, hhs⟩ := toIndices_of_mem hheader
  obtain ⟨ms, hms⟩ := toIndices_of_mem hpayload
  refine ⟨⟨a, ks, ns, hs, ms⟩, ?_⟩
  rw [hostCheck, ha, ok_bind, hkey, ok_bind, hns, ok_bind, hhs, ok_bind, hms, ok_bind, pure_eq_ok]

end

end Sys2Proof.Machine

/-! SUPPORT. Messages (43_session_and_host.md sections 2, 4 and 5): the steps of a message as a computation on
the keyed state alone, its commands as runs of those steps, and what follows for its text. -/

namespace Sys2Proof.Machine

/-! ### The step values of a text (R196, R198) -/

/-- One step after another on the keyed state alone: each TRANSITION leaves what the next step reads. -/
inductive StepsTo (step : Keyed → Sym → Except Stop StepValues) :
    Keyed → List Sym → List StepValues → Keyed → Prop
  | nil (k : Keyed) : StepsTo step k [] [] k
  | cons {k k' : Keyed} {v : Sym} {vs : List Sym} {e : StepValues} {es : List StepValues}
      (he : step k v = .ok e) (hes : StepsTo step (transition e.d k) vs es k') :
      StepsTo step k (v :: vs) (e :: es) k'

/-- A step that a permutation never stops runs through every text. -/
theorem exists_stepsTo {step : Keyed → Sym → Except Stop StepValues}
    (hstep : ∀ k v, Memory.wf k.S = true → ∃ e, step k v = .ok e) (vs : List Sym) {k : Keyed}
    (hk : Memory.wf k.S = true) : ∃ es k', StepsTo step k vs es k' ∧ Memory.wf k'.S = true := by
  induction vs generalizing k with
  | nil => exact ⟨[], k, .nil k, hk⟩
  | cons v vs ih =>
    obtain ⟨e, he⟩ := hstep k v hk
    obtain ⟨es, k', hes, hk'⟩ := ih (transition_keeps_wf e.d hk)
    exact ⟨e :: es, k', .cons he hes, hk'⟩

theorem StepsTo.length_eq {step : Keyed → Sym → Except Stop StepValues} {k k' : Keyed} {vs : List Sym}
    {es : List StepValues} (h : StepsTo step k vs es k') : es.length = vs.length := by
  induction h with
  | nil => rfl
  | cons _ _ ih => rw [List.length_cons, List.length_cons, ih]

theorem StepsTo.map_pt {k k' : Keyed} {pts : List Sym} {es : List StepValues}
    (h : StepsTo encryptStep k pts es k') : es.map StepValues.pt = pts := by
  induction h with
  | nil => rfl
  | cons he _ ih => rw [List.map_cons, encryptStep_pt he, ih]

/-- The ciphertext of a text's steps. -/
def ciphertextSymbols (es : List StepValues) : List Sym := es.map fun e => e.d.ct

/-- Decrypting the ciphertext of a text runs the same steps (R207). -/
theorem StepsTo.decrypt {k k' : Keyed} {pts : List Sym} {es : List StepValues}
    (h : StepsTo encryptStep k pts es k') (hk : Memory.wf k.S = true) :
    StepsTo decryptStep k (ciphertextSymbols es) es k' := by
  induction h with
  | nil k => exact .nil k
  | @cons k k' pt pts e es he _ ih =>
    obtain ⟨e', he', -, hd⟩ := exists_step_of_pt hk pt
    cases he.symm.trans he'
    exact .cons hd (ih (transition_keeps_wf e.d hk))

/-! ### The commands of a text -/

/-- A command that runs one step of a live session and answers `reply`, code OK. -/
structure StepCommand (instr : Sym → Instr) (step : Keyed → Sym → Except Stop StepValues)
    (reply : StepValues → Word) : Prop where
  wellFormed (v : Sym) : (instr v).wellFormed = true
  reply_ok (e : StepValues) : respCode (reply e) = 0
  exec_step {s : State} {k : Keyed} {v : Sym} {e : StepValues} : s.Live k.S k.I k.J → step k v = .ok e →
    ∃ t, exec (instr v) s = .next t ∧ t.resp = reply e ∧
      t.Live (transition e.d k).S (transition e.d k).I (transition e.d k).J

/-- A symbol index fits its field (R81). -/
theorem symFits_val (v : Sym) : symFits v.val = true := decide_eq_true (by omega)

theorem stepCommand_absorb : StepCommand (fun v => .absorb v.val) encryptStep fun _ => 0x0000 where
  wellFormed v := symFits_val v
  reply_ok _ := rfl
  exec_step h he := ⟨_, exec_absorb_of_step h he, respWord_ok_empty, h.1, rfl, rfl, rfl⟩

theorem stepCommand_enc : StepCommand (fun v => .enc v.val) encryptStep
    fun e => respWord .ok true (symBits e.d.ct) 0 0 where
  wellFormed v := symFits_val v
  reply_ok _ := respCode_respWord ..
  exec_step h he := ⟨_, exec_enc_of_step h he, rfl, h.1, rfl, rfl, rfl⟩

theorem stepCommand_dec : StepCommand (fun v => .dec v.val) decryptStep
    fun e => respWord .ok true (symBits e.pt) 0 0 where
  wellFormed v := symFits_val v
  reply_ok _ := respCode_respWord ..
  exec_step h he := ⟨_, exec_dec_of_step h he, rfl, h.1, rfl, rfl, rfl⟩

/-- In a live session the commands of a text run to its end and answer the replies of its steps. -/
theorem runCommands_steps {instr : Sym → Instr} {step : Keyed → Sym → Except Stop StepValues}
    {reply : StepValues → Word} (hc : StepCommand instr step reply) (key : KeyWord) {s : State}
    {k k' : Keyed} {vs : List Sym} {es : List StepValues} (hlive : s.Live k.S k.I k.J)
    (h : StepsTo step k vs es k') : ∃ t, runCommands key (vs.map instr) s = .ok (es.map reply, t) ∧
      t.Live k'.S k'.I k'.J ∧ t.inputs = s.inputs := by
  induction h generalizing s with
  | nil k => exact ⟨s, rfl, hlive, rfl⟩
  | cons he _ ih =>
    obtain ⟨u, hu, hresp, hulive⟩ := hc.exec_step (s := { s with keyBus := key }) hlive he
    obtain ⟨t, ht, htlive, hinputs⟩ := ih hulive
    have htransact := transact_eq (decode_encode (hc.wellFormed _)) hu (hresp ▸ hc.reply_ok _)
    refine ⟨t, ?_, htlive, hinputs.trans (exec_ports hu).2⟩
    rw [List.map_cons, runCommands_cons htransact ht, hresp, List.map_cons]

/-! ### Opening and closing a session -/

theorem keyOperand_wf {key : KeyWord} {T : Tableau} (h : keyOperand key = .ok T) :
    Memory.wf T = true := by
  obtain ⟨_, he⟩ | ⟨_, _, he⟩ | ⟨_, _, T', he, hw, _⟩ := keyOperand_cases key
  · cases h.symm.trans he
  · cases h.symm.trans he
  · cases h.symm.trans he
    exact hw

/-- The host's key word of 36 distinct symbols is the row-major tableau of them (R85, R111). -/
theorem keyOperand_keyWordOf {ks : List Sym} (hlen : ks.length = 36) (hnodup : ks.Nodup) :
    ∃ T, keyOperand (keyWordOf ks) = .ok T ∧ Memory.wf T = true ∧
      ∀ r c : Coord, ks[6 * r.val + c.val]? = some (valueAt T r c) := by
  have hentry (k : Nat) (hk : k < 36) : keyEntry (keyWordOf ks) k = ks[k].val :=
    (keyWordCarriesEntries ks k (by omega) hlen).1
  obtain ⟨T, hT, hcell⟩ := keyOperand_of_distinct (key := keyWordOf ks)
    (fun k hk => by rw [hentry k hk]; omega) fun k₁ k₂ h₁ h₂ he => by
      rw [hentry k₁ h₁, hentry k₂ h₂, Fin.val_inj] at he
      exact (hnodup.getElem_inj_iff).1 he
  refine ⟨T, hT, keyOperand_wf hT, fun r c => ?_⟩
  rw [List.getElem?_eq_getElem (by omega), Option.some.injEq, Fin.ext_iff, hcell]
  exact (hentry _ (by omega)).symm

theorem transact_loadKey {key : KeyWord} {T : Tableau} (h : keyOperand key = .ok T) (s : State) :
    transact key .loadKey s = .ok (State.loaded { s with keyBus := key } T) :=
  transact_eq rfl (exec_loadKey_of_tableau h) (respCode_respWord ..)

theorem transact_endSession (key : KeyWord) (s : State) : transact key .endSession s =
    .ok { State.reset with keyBus := key, inputs := s.inputs } :=
  transact_eq rfl (exec_endSession_eq _) (show respCode 0x0000 = 0 from rfl)

/-! ### A message of either direction (R195, R197) -/

/-- Which of the two messages. -/
inductive Direction where
  | encrypt
  | decrypt

/-- The command of a payload symbol. -/
def Direction.instr : Direction → Sym → Instr
  | .encrypt, v => .enc v.val
  | .decrypt, v => .dec v.val

/-- The step that the command of a payload symbol runs. -/
def Direction.step : Direction → Keyed → Sym → Except Stop StepValues
  | .encrypt => encryptStep
  | .decrypt => decryptStep

/-- The symbol a payload command answers. -/
def Direction.answer : Direction → StepValues → Sym
  | .encrypt, e => e.d.ct
  | .decrypt, e => e.pt

/-- The whole of a message's commands. -/
def Direction.commands (d : Direction) (c : Checked) : List Instr :=
  sessionPrologue c ++ c.payload.map d.instr ++ [.endSession]

theorem commands_encrypt (c : Checked) : encryptCommands c = Direction.encrypt.commands c := rfl

theorem commands_decrypt (c : Checked) : decryptCommands c = Direction.decrypt.commands c := rfl

/-- The message after the host's checks, which the two directions share. -/
def Direction.message (d : Direction) (p : HostParams) (s : State)
    (key payload nonce header : List Char) : Except HostError (List Char × State) := do
  let c ← hostCheck p key nonce header payload
  runMessage c (c.payload.map d.instr) s

theorem encryptMsg_eq (p : HostParams) (s : State) (key plaintext nonce header signature : List Char) :
    encryptMsg p s key plaintext nonce header signature =
      Direction.encrypt.message p s key (plaintext ++ signature) nonce header := rfl

theorem decryptMsg_eq (p : HostParams) (s : State) (key ciphertext nonce header : List Char) :
    decryptMsg p s key ciphertext nonce header =
      Direction.decrypt.message p s key ciphertext nonce header := rfl

theorem Direction.stepCommand (d : Direction) : StepCommand d.instr d.step
    fun e => respWord .ok true (symBits (d.answer e)) 0 0 := by
  cases d with
  | encrypt => exact stepCommand_enc
  | decrypt => exact stepCommand_dec

theorem Direction.step_completes (d : Direction) (k : Keyed) (v : Sym) (hk : Memory.wf k.S = true) :
    ∃ e, d.step k v = .ok e := by
  cases d with
  | encrypt =>
    obtain ⟨e, he, -⟩ := exists_step_of_pt hk v
    exact ⟨e, he⟩
  | decrypt =>
    obtain ⟨e, he, -⟩ := exists_step_of_ct hk v
    exact ⟨e, he⟩

/-- The steps of a message, on the keyed state alone: the key's tableau, the steps of the nonce and header,
and those of the payload. -/
structure MessageSteps (d : Direction) (c : Checked) (T : Tableau) (opened steps : List StepValues)
    (k k' : Keyed) : Prop where
  load : keyOperand (keyWordOf c.key) = .ok T
  prologue : StepsTo encryptStep ⟨T, 0, 0⟩ (c.nonce ++ c.header) opened k
  payload : StepsTo d.step k c.payload steps k'

theorem exists_messageSteps (d : Direction) {c : Checked} (hlen : c.key.length = 36)
    (hnodup : c.key.Nodup) : ∃ T opened steps k k', MessageSteps d c T opened steps k k' ∧
      Memory.wf k.S = true := by
  obtain ⟨T, hT, hw, -⟩ := keyOperand_keyWordOf hlen hnodup
  obtain ⟨opened, k, hopened, hk⟩ :=
    exists_stepsTo Direction.encrypt.step_completes (c.nonce ++ c.header) (k := ⟨T, 0, 0⟩) hw
  obtain ⟨steps, k', hpayload, -⟩ := exists_stepsTo d.step_completes c.payload hk
  exact ⟨T, opened, steps, k, k', ⟨hT, hopened, hpayload⟩, hk⟩

/-- The symbols that a message with these steps answers. -/
def Direction.output (d : Direction) (c : Checked) (steps : List StepValues) : List Char :=
  steps.map fun e => toSymbol c.alphabet (d.answer e)

/-- `RESP.DSYM` of a payload command's response is the symbol it answers. -/
theorem responseSymbols_replies (d : Direction) (c : Checked) (steps : List StepValues) :
    responseSymbols c.alphabet (steps.map fun e => respWord .ok true (symBits (d.answer e)) 0 0) =
      .ok (d.output c steps) := by
  induction steps with
  | nil => rfl
  | cons e es ih =>
    have hsymbol : responseSymbol c.alphabet (respWord .ok true (symBits (d.answer e)) 0 0) =
        .ok (toSymbol c.alphabet (d.answer e)) := by
      simp [responseSymbol]
    rw [List.map_cons, responseSymbols, hsymbol, ih]
    rfl

section
variable {d : Direction} {c : Checked} {T : Tableau} {opened steps : List StepValues} {k k' : Keyed}
  (h : MessageSteps d c T opened steps k k') (s : State)
include h

theorem runCommands_prologue : ∃ t, runCommands (keyWordOf c.key) (sessionPrologue c) s =
      .ok (0x0000 :: opened.map fun _ => 0x0000, t) ∧ t.Live k.S k.I k.J ∧ t.inputs = s.inputs := by
  obtain ⟨t, ht, hlive, hinputs⟩ := runCommands_steps stepCommand_absorb (keyWordOf c.key)
    (s := State.loaded { s with keyBus := keyWordOf c.key } T) ⟨rfl, rfl, rfl, rfl⟩ h.prologue
  refine ⟨t, ?_, hlive, hinputs⟩
  rw [List.map_append] at ht
  exact runCommands_cons (transact_loadKey h.load s) ht

/-- A message's three runs, from any state. -/
theorem exists_messageRuns : ∃ t u,
    runCommands (keyWordOf c.key) (sessionPrologue c) s =
      .ok (0x0000 :: opened.map fun _ => 0x0000, t) ∧
    runCommands (keyWordOf c.key) (c.payload.map d.instr) t =
      .ok (steps.map fun e => respWord .ok true (symBits (d.answer e)) 0 0, u) ∧
    runCommands (keyWordOf c.key) [.endSession] u =
      .ok ([0x0000], { State.reset with keyBus := keyWordOf c.key, inputs := s.inputs }) := by
  obtain ⟨t, ht, hlive, hinputs⟩ := runCommands_prologue h s
  obtain ⟨u, hu, -, hinputs'⟩ := runCommands_steps d.stepCommand (keyWordOf c.key) hlive h.payload
  refine ⟨t, u, ht, hu, ?_⟩
  rw [← hinputs, ← hinputs']
  exact runCommands_cons (transact_endSession _ u) rfl

theorem runMessage_eq : runMessage c (c.payload.map d.instr) s =
    .ok (d.output c steps, { State.reset with keyBus := keyWordOf c.key, inputs := s.inputs }) := by
  obtain ⟨t, u, ht, hu, hend⟩ := exists_messageRuns h s
  simp only [runMessage, ht, hu, hend, responseSymbols_replies, ok_bind, pure_eq_ok]

theorem messageRun_of_steps : MessageRun c (d.commands c) s
    { State.reset with keyBus := keyWordOf c.key, inputs := s.inputs } (d.output c steps) := by
  obtain ⟨t, u, ht, hu, hend⟩ := exists_messageRuns h s
  have hrun := runCommands_append (runCommands_append ht hu) hend
  refine ⟨_, _, _, hrun, runCommands_codes hrun, ?_, ?_, ?_, rfl⟩
  · have := h.prologue.length_eq
    simp only [List.length_cons, List.length_map, this, List.length_append]
    omega
  · rw [List.length_map, h.payload.length_eq]
  · rw [Direction.output, List.forall₂_map_left_iff, List.forall₂_map_right_iff, List.forall₂_same]
    exact fun e _ => ⟨d.answer e, by rw [respDsym_respWord, symBits_toNat], rfl⟩

end

/-! ### A message whose checks pass (R195, R197, R271) -/

section
variable {d : Direction} {p : HostParams} {key payload nonce header : List Char} {c : Checked}

theorem spells_of_hostCheck (h : hostCheck p key nonce header payload = .ok c) :
    c.Spells p key nonce header payload := by
  obtain ⟨ha, hkey, -, -, hnonce, hheader, hpayload⟩ := hostCheck_eq_ok h
  exact ⟨(buildAlphabet_eq_ok ha).1, map_toSymbol_of_toIndices (toIndices_of_keyIndices hkey),
    map_toSymbol_of_toIndices hnonce, map_toSymbol_of_toIndices hheader, map_toSymbol_of_toIndices hpayload⟩

/-- One index to each character. -/
theorem lengths_of_hostCheck (h : hostCheck p key nonce header payload = .ok c) :
    c.nonce.length = nonce.length ∧ c.header.length = header.length ∧
      c.payload.length = payload.length := by
  obtain ⟨-, -, hnonce, hheader, hpayload⟩ := spells_of_hostCheck h
  exact ⟨by simpa using congrArg List.length hnonce, by simpa using congrArg List.length hheader,
    by simpa using congrArg List.length hpayload⟩

theorem message_of_hostCheck (h : hostCheck p key nonce header payload = .ok c) (s : State) :
    d.message p s key payload nonce header = runMessage c (c.payload.map d.instr) s := by
  rw [Direction.message, h, ok_bind]

/-- A message whose checks pass answers, from every state, the same text by its whole command sequence. -/
theorem exists_message (d : Direction) (h : hostCheck p key nonce header payload = .ok c) :
    ∃ out : List Char, out.length = payload.length ∧ ∀ s, ∃ t,
      d.message p s key payload nonce header = .ok (out, t) ∧ MessageRun c (d.commands c) s t out := by
  obtain ⟨-, -, hlen, hnodup, -⟩ := hostCheck_eq_ok h
  obtain ⟨T, opened, steps, k, k', hsteps, -⟩ := exists_messageSteps d hlen hnodup
  refine ⟨d.output c steps, ?_, fun s => ⟨_, ?_, messageRun_of_steps hsteps s⟩⟩
  · rw [Direction.output, List.length_map, hsteps.payload.length_eq, (lengths_of_hostCheck h).2.2]
  · rw [message_of_hostCheck h, runMessage_eq hsteps]

theorem commands_length (h : hostCheck p key nonce header payload = .ok c) : (d.commands c).length =
    1 + nonce.length + header.length + payload.length + 1 := by
  obtain ⟨hnonce, hheader, hpayload⟩ := lengths_of_hostCheck h
  simp only [Direction.commands, sessionPrologue, absorbStr, List.length_append, List.length_cons,
    List.length_map, List.length_nil, hnonce, hheader, hpayload]
  omega

theorem commands_eq (d : Direction) (c : Checked) : d.commands c = [Instr.loadKey] ++
    c.nonce.map (fun v => Instr.absorb v.val) ++ c.header.map (fun v => Instr.absorb v.val) ++
      c.payload.map d.instr ++ [Instr.endSession] := by
  simp [Direction.commands, sessionPrologue, absorbStr]

end

/-- Settles O53: the texts' indices are those of the checks, and the message runs the steps of the nonce, the
header and the payload on the key's tableau. -/
theorem encryptMessageIsItsCommands : Obligations.EncryptMessageIsItsCommands := by
  intro p s key plaintext nonce header signature c h
  obtain ⟨out, hlen, hrun⟩ := exists_message .encrypt h
  obtain ⟨t, hmessage, hrun⟩ := hrun s
  rw [List.length_append] at hlen
  refine ⟨spells_of_hostCheck h, commands_eq .encrypt c, ?_, out, t, hmessage, hlen, hrun⟩
  rw [commands_encrypt, commands_length h, List.length_append]
  omega

/-- Settles O59: as ENCRYPT_MSG, with the decrypt step for the payload, which a permutation never stops. -/
theorem decryptMessageIsItsCommands : Obligations.DecryptMessageIsItsCommands := by
  intro p s key ciphertext nonce header c h
  obtain ⟨out, hlen, hrun⟩ := exists_message .decrypt h
  obtain ⟨t, hmessage, hrun⟩ := hrun s
  exact ⟨spells_of_hostCheck h, commands_eq .decrypt c, commands_length (d := .decrypt) h, out, t, hmessage,
    hlen, hrun⟩

/-! ### The host's checks and the signature (R200 to R202, R208) -/

/-- Settles O55: both append the same text before anything else. -/
theorem signatureIsAppended : Obligations.SignatureIsAppended := by
  intro p s key plaintext nonce header signature
  rw [encryptMsg_eq, encryptMsg_eq, List.append_nil]

/-- Settles O52: the checks run in the stated order, each with one error, and a message that passes them
answers. -/
theorem hostChecksComeFirst : Obligations.HostChecksComeFirst := by
  intro p s key nonce header payload answer hanswer
  obtain ⟨d, rfl⟩ : ∃ d : Direction, answer = d.message p s key payload nonce header := by
    obtain ⟨plaintext, signature, rfl, rfl⟩ | rfl := hanswer
    · exact ⟨.encrypt, encryptMsg_eq ..⟩
    · exact ⟨.decrypt, decryptMsg_eq ..⟩
  have answer_error {err : HostError} (h : hostCheck p key nonce header payload = .error err) :
      d.message p s key payload nonce header = .error err := by
    rw [Direction.message, h, error_bind]
  refine ⟨fun hbad => answer_error (hostCheck_of_bad_alphabet hbad ..), fun h36 hnodup => ?_⟩
  obtain ⟨a, ha, hsymbols⟩ := buildAlphabet_of h36 hnodup
  rw [← hsymbols] at hnodup ⊢
  refine ⟨fun hbad => answer_error (hostCheck_of_bad_key ha _ _ _ (keyIndices_of_not_mem hbad)),
    fun hgood => ?_⟩
  obtain ⟨ks, hks⟩ := toIndices_of_mem hgood
  have hkey := keyIndices_of_toIndices hnodup hks
  refine ⟨fun hbad => ?_, fun hlen hdistinct => ?_⟩
  · rw [if_neg (by tauto)] at hkey
    exact answer_error (hostCheck_of_bad_key ha _ _ _ hkey)
  · rw [if_pos ⟨hlen, hdistinct⟩] at hkey
    refine ⟨fun hbad => answer_error (hostCheck_of_bad_text ha _ _ _ hkey hbad), fun hgood => ?_⟩
    obtain ⟨c, hc⟩ := hostCheck_of_good_text ha _ _ _ hkey hgood
    obtain ⟨out, -, hrun⟩ := exists_message d hc
    obtain ⟨t, ht, -⟩ := hrun s
    exact ⟨⟨c, hc⟩, _, ht⟩

/-! ### Decrypting an encrypted message (R207) -/

/-- A text of the alphabet's own symbols passes where another payload did, as the indices it spells. -/
theorem hostCheck_of_symbols {p : HostParams} {key payload nonce header : List Char} {c : Checked}
    (h : hostCheck p key nonce header payload = .ok c)
    (hcanonical : p.caseFold = true → ∀ ch ∈ p.symbols, ch.toLower = ch) (vs : List Sym) :
    hostCheck p key nonce header (vs.map (toSymbol c.alphabet)) = .ok { c with payload := vs } := by
  obtain ⟨ha, hkey, -, -, hnonce, hheader, -⟩ := hostCheck_eq_ok h
  obtain ⟨hsymbols, -, hdistinct⟩ := buildAlphabet_eq_ok ha
  rw [← hsymbols] at hcanonical hdistinct
  rw [hostCheck, ha, ok_bind, hkey, ok_bind, hnonce, ok_bind, hheader, ok_bind,
    toIndices_map_toSymbol hdistinct hcanonical vs, ok_bind, pure_eq_ok]

/-- Settles O54: the ciphertext's symbols are the alphabet's own, so the checks read back the indices that ENC
answered, and DEC runs the same steps on them. -/
theorem decryptingGivesThePlaintextBack : Obligations.DecryptingGivesThePlaintextBack := by
  intro p s s' key plaintext nonce header signature c hcanonical h
  obtain ⟨-, -, hlen, hnodup, -⟩ := hostCheck_eq_ok h
  obtain ⟨-, -, -, -, hpayload⟩ := spells_of_hostCheck h
  obtain ⟨T, opened, steps, k, k', hsteps, hk⟩ := exists_messageSteps .encrypt hlen hnodup
  have hback : MessageSteps .decrypt { c with payload := ciphertextSymbols steps } T opened steps k k' :=
    ⟨hsteps.load, hsteps.prologue, hsteps.payload.decrypt hk⟩
  have hciphertext : Direction.encrypt.output c steps =
      (ciphertextSymbols steps).map (toSymbol c.alphabet) := by
    rw [ciphertextSymbols, List.map_map]
    rfl
  have hplaintext : Direction.decrypt.output { c with payload := ciphertextSymbols steps } steps =
      (plaintext ++ signature).map (foldCase p.caseFold) := by
    rw [← hpayload, ← hsteps.payload.map_pt, List.map_map]
    rfl
  have hencrypt := (encryptMsg_eq ..).trans ((message_of_hostCheck h s).trans (runMessage_eq hsteps s))
  have hdecrypt := (decryptMsg_eq ..).trans ((message_of_hostCheck
    (hostCheck_of_symbols h hcanonical (ciphertextSymbols steps)) s').trans (runMessage_eq hback s'))
  rw [hciphertext] at hencrypt
  rw [hplaintext] at hdecrypt
  exact ⟨_, _, _, hencrypt, hdecrypt⟩

/-! ### The state before a message (R204, R209) -/

theorem message_fst_eq (d : Direction) (p : HostParams) (s₁ s₂ : State)
    (key payload nonce header : List Char) :
    (d.message p s₁ key payload nonce header).map Prod.fst =
      (d.message p s₂ key payload nonce header).map Prod.fst := by
  match h : hostCheck p key nonce header payload with
  | .ok c =>
    obtain ⟨out, -, hrun⟩ := exists_message d h
    obtain ⟨t₁, h₁, -⟩ := hrun s₁
    obtain ⟨t₂, h₂, -⟩ := hrun s₂
    rw [h₁, h₂]
    rfl
  | .error err => rw [Direction.message, Direction.message, h, error_bind, error_bind]

theorem ciphertextOf_eq_of_reset (p : HostParams) (s : State) (key plaintext nonce header : List Char) :
    ciphertextOf p s key plaintext nonce header = ciphertextOf p State.reset key plaintext nonce header :=
  message_fst_eq .encrypt p s State.reset key (plaintext ++ []) nonce header

/-- A change of the nonce that keeps the ciphertext is a counterexample to divergence sensitivity. -/
theorem diverges_eq_false {p : HostParams} {s : State} {key plaintext nonce header nonce' : List Char}
    (hmem : nonce' ∈ replacements p.symbols nonce)
    (hsame : ciphertextOf p s key plaintext nonce' header = ciphertextOf p s key plaintext nonce header) :
    diverges p s key plaintext nonce header = false := by
  have hnonces : ((replacements p.symbols nonce).all fun nonce' =>
      ciphertextOf p s key plaintext nonce' header != ciphertextOf p s key plaintext nonce header) = false :=
    List.all_eq_false.2 ⟨nonce', hmem, by simp [hsame]⟩
  simp only [diverges, hnonces, Bool.and_false, Bool.false_and]

/-! ### A longer message begins like a shorter one -/

theorem StepsTo.take {step : Keyed → Sym → Except Stop StepValues} {k k' : Keyed} {vs : List Sym}
    {es : List StepValues} (h : StepsTo step k vs es k') (n : Nat) :
    ∃ k'', StepsTo step k (vs.take n) (es.take n) k'' := by
  induction h generalizing n with
  | nil k => exact ⟨k, by simpa using .nil k⟩
  | cons he _ ih =>
    cases n with
    | zero => exact ⟨_, .nil _⟩
    | succ n =>
      obtain ⟨k'', hes⟩ := ih n
      exact ⟨k'', .cons he hes⟩

theorem toIndices_take {caseFold : Bool} {a : Alphabet} {chs : List Char} {vs : List Sym}
    (h : toIndices caseFold a chs = .ok vs) (n : Nat) :
    toIndices caseFold a (chs.take n) = .ok (vs.take n) := by
  induction chs generalizing vs n with
  | nil => cases h; simp [toIndices]
  | cons ch chs ih =>
    obtain ⟨v, hv, h⟩ := bind_eq_ok_iff.1 h
    obtain ⟨us, hus, h⟩ := bind_eq_ok_iff.1 h
    cases h
    cases n with
    | zero => rfl
    | succ n => rw [List.take_succ_cons, toIndices, hv, ok_bind, ih hus n]; rfl

theorem hostCheck_take {p : HostParams} {key payload nonce header : List Char} {c : Checked}
    (h : hostCheck p key nonce header payload = .ok c) (n : Nat) :
    hostCheck p key nonce header (payload.take n) = .ok { c with payload := c.payload.take n } := by
  obtain ⟨ha, hkey, -, -, hnonce, hheader, hpayload⟩ := hostCheck_eq_ok h
  rw [hostCheck, ha, ok_bind, hkey, ok_bind, hnonce, ok_bind, hheader, ok_bind, toIndices_take hpayload,
    ok_bind, pure_eq_ok]

theorem ciphertextOf_take {p : HostParams} {key plaintext nonce header : List Char} {c : Checked}
    (h : hostCheck p key nonce header plaintext = .ok c) (s : State) (n : Nat) :
    ciphertextOf p s key (plaintext.take n) nonce header =
      (ciphertextOf p s key plaintext nonce header).map (List.take n) := by
  obtain ⟨-, -, hlen, hnodup, -⟩ := hostCheck_eq_ok h
  obtain ⟨T, opened, steps, k, k', hsteps, -⟩ := exists_messageSteps .encrypt hlen hnodup
  obtain ⟨k'', htake⟩ := hsteps.payload.take n
  have hshort : MessageSteps .encrypt { c with payload := c.payload.take n } T opened (steps.take n) k k'' :=
    ⟨hsteps.load, hsteps.prologue, htake⟩
  rw [ciphertextOf, ciphertextOf, encryptMsg_eq, encryptMsg_eq, List.append_nil, List.append_nil,
    message_of_hostCheck h, message_of_hostCheck (hostCheck_take h n), runMessage_eq hsteps]
  refine (congrArg (Except.map Prod.fst) (runMessage_eq hshort s)).trans ?_
  simp only [Except.map, Direction.output, List.map_take]

/-! ### The inputs that R209 names -/

/-- The ciphertext under the known key and the default alphabet, from reset, without a header. -/
def knownCiphertext (plaintext nonce : List Char) : Except HostError (List Char) :=
  ciphertextOf ⟨Config.defaultSymbols, true⟩ State.reset Config.knownKey plaintext nonce []

theorem ciphertextOf_eq_known (s : State) (plaintext nonce : List Char) :
    ciphertextOf ⟨Config.defaultSymbols, true⟩ s Config.knownKey plaintext nonce [] =
      knownCiphertext plaintext nonce :=
  ciphertextOf_eq_of_reset ..

theorem knownCiphertext_of_counterexamples :
    knownCiphertext ['i'] Config.knownNonce = .ok ['i'] ∧
    knownCiphertext ['i'] ['n', 'o', 'l', 'w', 'b', 'f'] = .ok ['i'] ∧
    knownCiphertext ['i'] ['s', 'i', 'l', 'w', 'b', 'f'] = .ok ['i'] ∧
    knownCiphertext ['i'] ['s', 'o', 'l', 'w', 'b', 's'] = .ok ['i'] := by
  decide +kernel

/-- The second symbols already differ. -/
theorem knownCiphertext_knownPlaintext_ne :
    knownCiphertext Config.knownPlaintext ['n', 'o', 'l', 'w', 'b', 'f'] ≠
      knownCiphertext Config.knownPlaintext Config.knownNonce := by
  intro hsame
  obtain ⟨c, hchanged⟩ : ∃ c, hostCheck ⟨Config.defaultSymbols, true⟩ Config.knownKey
      ['n', 'o', 'l', 'w', 'b', 'f'] [] Config.knownPlaintext = .ok c := ⟨_, rfl⟩
  obtain ⟨c', hknown⟩ : ∃ c, hostCheck ⟨Config.defaultSymbols, true⟩ Config.knownKey
      Config.knownNonce [] Config.knownPlaintext = .ok c := ⟨_, rfl⟩
  have htake := congrArg (Except.map (List.take 2)) hsame
  rw [knownCiphertext, knownCiphertext, ← ciphertextOf_take hchanged, ← ciphertextOf_take hknown] at htake
  revert htake
  decide +kernel

/-- Settles O56: the texts of a message are computed from its arguments alone, so the counterexamples are
those from reset. -/
theorem messagesIgnoreTheOldState : Obligations.MessagesIgnoreTheOldState := by
  refine ⟨fun p s₁ s₂ key text nonce header signature =>
    ⟨message_fst_eq .encrypt p s₁ s₂ key (text ++ signature) nonce header,
      message_fst_eq .decrypt p s₁ s₂ key text nonce header⟩, fun s => ?_⟩
  obtain ⟨hknown, hfirst, hsecond, hlast⟩ := knownCiphertext_of_counterexamples
  have hdiverges : diverges ⟨Config.defaultSymbols, true⟩ s Config.knownKey ['i'] Config.knownNonce [] =
      false := by
    refine diverges_eq_false (nonce' := ['n', 'o', 'l', 'w', 'b', 'f']) (by decide +kernel) ?_
    rw [ciphertextOf_eq_known, ciphertextOf_eq_known, hfirst, hknown]
  simp only [ciphertextOf_eq_known]
  exact ⟨hknown, hfirst, hsecond, hlast, hdiverges, knownCiphertext_knownPlaintext_ne⟩

end Sys2Proof.Machine

/-! SUPPORT. The recorder (43_session_and_host.md section 3): what each event adds, and the sequence of a
message. -/

namespace Sys2Proof.Machine

/-! ### What the recorder adds (R199) -/

theorem exists_recorded_iff {cmd : Word} : (∃ i, decode cmd = .ok i ∧ isRecorded i = true) ↔
    decode cmd = .ok .loadKey ∨
      ∃ n, decode cmd = .ok (.enc n) ∨ decode cmd = .ok (.dec n) ∨ decode cmd = .ok (.absorb n) := by
  constructor
  · rintro ⟨i, hd, hi⟩
    cases i with
    | nop | locate | valueAt | pointerValue | endSession => cases hi
    | loadKey => exact .inl hd
    | enc n => exact .inr ⟨n, .inl hd⟩
    | dec n => exact .inr ⟨n, .inr (.inl hd)⟩
    | absorb n => exact .inr ⟨n, .inr (.inr hd)⟩
  · rintro (hd | ⟨n, hd | hd | hd⟩) <;> exact ⟨_, hd, rfl⟩

theorem recordAfter_of_recorded {q : RecorderParams} {cmd : Word} {key : KeyWord} {t : State}
    (h : ∃ i, decode cmd = .ok i ∧ isRecorded i = true) (hok : t.lastCode = .ok) :
    recordAfter q (.command cmd key) t = [snapshotOf q t.observe] := by
  obtain ⟨i, hd, hi⟩ := h
  rw [recordAfter_command hd, if_pos ⟨hi, hok⟩]

theorem recordAfter_of_not_recorded {q : RecorderParams} {cmd : Word} {key : KeyWord} {t : State}
    (h : t.lastCode ≠ .ok ∨ ¬ ∃ i, decode cmd = .ok i ∧ isRecorded i = true) :
    recordAfter q (.command cmd key) t = [] := by
  match hd : decode cmd with
  | .error why => simp only [recordAfter, hd]
  | .ok i =>
    rw [recordAfter_command hd, if_neg]
    rintro ⟨hi, hok⟩
    exact h.elim (fun hne => hne hok) fun hnot => hnot ⟨i, hd, hi⟩

/-! ### The response's code is `LAST_CODE` (R28, R29) -/

theorem Code.bits_eq_zero_iff {code : Code} : code.bits = 0 ↔ code = .ok := by
  cases code <;> decide

theorem exec_respCode {i : Instr} {s t : State} (h : exec i s = .next t) :
    respCode t.resp = t.lastCode.bits := by
  have ho := exec_outcome i s
  rw [h] at ho
  cases ho <;> exact respCode_respWord ..

theorem lastCode_of_transact {key : KeyWord} {i : Instr} {s t : State} (hwf : i.wellFormed = true)
    (h : transact key i s = .ok t) : t.lastCode = .ok := by
  obtain ⟨hstep, hzero⟩ := transact_eq_ok h
  have hexec := (step_of_command rfl (decode_encode hwf)).symm.trans hstep
  exact Code.bits_eq_zero_iff.1 ((exec_respCode hexec).symm.trans hzero)

/-- Commands that are all recorded and run to their end leave one snapshot each, of the states they leave. -/
theorem history_of_recorded {q : RecorderParams} {key : KeyWord} {is : List Instr} {s t : State}
    {rs : List Word} (es : List HostEvent) (hrecorded : ∀ i ∈ is, isRecorded i = true ∧ i.wellFormed = true)
    (h : runCommands key is s = .ok (rs, t)) : ∃ states : List State, states.length = is.length ∧
      history q (commandEvents key is ++ es) s =
        states.map (fun u => snapshotOf q u.observe) ++ history q es t ∧
      ∀ k u, states[k]? = some u → ∃ rs, runCommands key (is.take (k + 1)) s = .ok (rs, u) := by
  induction is generalizing s rs with
  | nil => cases h; exact ⟨[], rfl, rfl, nofun⟩
  | cons i is ih =>
    obtain ⟨v, hv, h⟩ := bind_eq_ok_iff.1 h
    obtain ⟨r, hr, h⟩ := bind_eq_ok_iff.1 h
    cases h
    obtain ⟨⟨hi, hwf⟩, his⟩ := List.forall_mem_cons.1 hrecorded
    obtain ⟨states, hlen, hhistory, hstates⟩ := ih his hr
    refine ⟨v :: states, by rw [List.length_cons, List.length_cons, hlen], ?_, fun k u hu => ?_⟩
    · refine (history_transact hv).trans ?_
      rw [recordAfter_of_recorded ⟨i, decode_encode hwf, hi⟩ (lastCode_of_transact hwf hv)]
      exact congrArg _ hhistory
    · cases k with
      | zero =>
        cases hu
        exact ⟨_, runCommands_cons hv rfl⟩
      | succ k =>
        obtain ⟨rs, hrs⟩ := hstates k u hu
        exact ⟨_, runCommands_cons hv hrs⟩

/-- The recorder reads the port after every command of a message but the last. -/
theorem recorded_of_mem {d : Direction} {c : Checked} :
    ∀ i ∈ sessionPrologue c ++ c.payload.map d.instr, isRecorded i = true ∧ i.wellFormed = true := by
  intro i hi
  simp only [sessionPrologue, absorbStr, List.cons_append, List.mem_cons, List.mem_append,
    List.mem_map] at hi
  obtain rfl | (⟨v, -, rfl⟩ | ⟨v, -, rfl⟩) | ⟨v, -, rfl⟩ := hi
  · exact ⟨rfl, rfl⟩
  · exact ⟨rfl, symFits_val v⟩
  · exact ⟨rfl, symFits_val v⟩
  · exact ⟨by cases d <;> rfl, d.stepCommand.wellFormed v⟩

theorem history_endSession (q : RecorderParams) (key : KeyWord) (s : State) :
    history q (commandEvents key [.endSession]) s = [] :=
  history_transact (transact_endSession key s)

/-- Settles O57: an event adds what `recordAfter` says; of a message's commands all but END_SESSION are
recorded, and the first of their states is the loaded one. -/
theorem historyHasOneSnapshotPerTransition : Obligations.HistoryHasOneSnapshotPerTransition := by
  refine ⟨fun q s t cmd key es hstep => ?_, fun q s t es hstep => ?_,
    fun p q s key payload nonce header c commands h hcommands => ?_⟩
  · rw [history_cons hstep]
    refine ⟨fun hok hrecorded => ?_, fun hnot => ?_⟩
    · rw [recordAfter_of_recorded (exists_recorded_iff.2 hrecorded) hok]
      rfl
    · rw [recordAfter_of_not_recorded (hnot.imp_right (mt exists_recorded_iff.1))]
      rfl
  · rw [history_cons hstep]
    rfl
  · obtain ⟨d, rfl⟩ : ∃ d : Direction, commands = d.commands c :=
      hcommands.elim (fun he => ⟨.encrypt, he.trans (commands_encrypt c)⟩)
        fun he => ⟨.decrypt, he.trans (commands_decrypt c)⟩
    obtain ⟨-, -, hlen, hnodup, -⟩ := hostCheck_eq_ok h
    obtain ⟨hnonce, hheader, hpayload⟩ := lengths_of_hostCheck h
    obtain ⟨T, hT, -, hcells⟩ := keyOperand_keyWordOf hlen hnodup
    obtain ⟨T', opened, steps, k, k', hsteps, -⟩ := exists_messageSteps d hlen hnodup
    obtain ⟨t, u, ht, hu, -⟩ := exists_messageRuns hsteps s
    obtain ⟨states, hcount, hhistory, hstates⟩ := history_of_recorded (q := q)
      (commandEvents (keyWordOf c.key) [.endSession]) recorded_of_mem (runCommands_append ht hu)
    have hopen : runCommands (keyWordOf c.key) [.loadKey] s =
        .ok ([_], State.loaded { s with keyBus := keyWordOf c.key } T) :=
      runCommands_cons (transact_loadKey hT s) rfl
    match states with
    | [] => cases hcount
    | first :: later =>
      obtain ⟨rs, hfirst⟩ := hstates 0 first rfl
      have hloaded : first = State.loaded { s with keyBus := keyWordOf c.key } T :=
        congrArg Prod.snd (Except.ok.inj (hfirst.symm.trans hopen))
      refine ⟨first, later, T, ?_, ?_, fun n v hv => ?_, hloaded ▸ snapshotOf_loaded q _ T, hcells⟩
      · rw [history_endSession, List.append_nil] at hhistory
        rw [← hhistory, Direction.commands, commandEvents, List.map_append]
        rfl
      · simp only [List.length_cons, List.length_append, List.length_map, sessionPrologue, absorbStr,
          hnonce, hheader, hpayload] at hcount
        omega
      · obtain ⟨rs, hrs⟩ := hstates n v hv
        refine ⟨rs, ?_⟩
        rwa [Direction.commands, List.take_append_of_le_length]
        rw [← hcount]
        exact (List.getElem?_eq_some_iff.1 hv).1

end Sys2Proof.Machine
